-- ==== Sys2Proof/Word.lean ====
section
/-! DEFINITION. The block's two value types (spec 00 R6, R7): bytes of 8 bits and words of 16 bits, both unsigned. -/

namespace Sys2Proof

/-- A byte: 8 bits, unsigned (R6, R7). -/
abbrev Byte := BitVec 8

/-- A word: 16 bits, unsigned (R7); the CRC register and the 16-bit counts are words. -/
abbrev Word := BitVec 16

end Sys2Proof
end

