-- ==== Sys2Proof/Config.lean ====
section
/-! DEFINITION. What an implementation of the block fixes (spec 00 R6): the OPEN parameter, and the limits of the
command format. -/

namespace Sys2Proof

/-- OWN_ADDR_RESET, the value of OWN_ADDR after reset: an OPEN parameter (R6, R230, I7). It has no body, so a claim
holds for every value of it (log 2). -/
opaque Config.ownAddrReset : Byte

/-- MAX_SEQ, the longest byte sequence one command carries (R6, D4). -/
def Config.maxSeq : Nat := 65535

/-- The most data bytes one message carries: its length field is one byte (R6, R70, D30). -/
def Config.maxData : Nat := 255

/-- RXBUF_CAP, the capacity of the receive buffer (R6, R26, D11). -/
def Config.rxbufCap : Nat := 260

end Sys2Proof
end

