-- ==== Sys2Proof/Syntax.lean ====
section
/-! DEFINITION. The commands of the block (spec 30 R72; opcode_table.json): one constructor per row of the table. -/

namespace Sys2Proof

/-- The 18 commands with their operands (R70, R72). A `List Byte` field is the byte sequence of a `seq16` operand or
the data of a `msg` operand; its count is not a field of its own, since it is always the sequence's length. -/
inductive Instr where
  /-- SUM.INIT, opcode 0x10 (R104). -/
  | sumInit
  /-- SUM.ADD b, opcode 0x11 (R105). -/
  | sumAdd (b : Byte)
  /-- SUM.READ, opcode 0x12 (R106). -/
  | sumRead
  /-- SUM.GEN s, opcode 0x13 (R107). -/
  | sumGen (seq : List Byte)
  /-- SUM.CHECK f, opcode 0x14 (R108). -/
  | sumCheck (seq : List Byte)
  /-- CRC.INIT, opcode 0x20 (R124). -/
  | crcInit
  /-- CRC.UPDATE b, opcode 0x21 (R125). -/
  | crcUpdate (b : Byte)
  /-- CRC.READ, opcode 0x22 (R126). -/
  | crcRead
  /-- CRC.GEN s, opcode 0x23 (R127). -/
  | crcGen (seq : List Byte)
  /-- CRC.CHECK f, opcode 0x24 (R128). -/
  | crcCheck (seq : List Byte)
  /-- ENC.ADD dest, src, header, [data], opcode 0x30 (R142). -/
  | encAdd (dest src header : Byte) (data : List Byte)
  /-- ENC.CRC dest, src, header, [data], opcode 0x31 (R143). -/
  | encCrc (dest src header : Byte) (data : List Byte)
  /-- DEC s, opcode 0x38 (R151). -/
  | dec (seq : List Byte)
  /-- RA.SETADDR a, opcode 0x40 (R180). -/
  | raSetaddr (a : Byte)
  /-- RA.GETADDR, opcode 0x41 (R181). -/
  | raGetaddr
  /-- RA.FEED s, opcode 0x42 (R179). -/
  | raFeed (chunk : List Byte)
  /-- RA.FLUSH, opcode 0x43 (R184). -/
  | raFlush
  /-- RA.LEVEL, opcode 0x44 (R182). -/
  | raLevel
  deriving DecidableEq, Repr

/-- The four operand layouts a command may have (R70): none, one byte, a counted sequence, a message. -/
inductive OperandKind where
  | none
  | imm8
  | seq16
  | msg
  deriving DecidableEq, Repr

end Sys2Proof
end

