-- ==== Sys2Proof/WellFormed.lean ====
section
/-! DEFINITION. The commands that can be written (spec 30 R70, R78; D4, D30): a sequence operand has at most 65535
bytes and a message at most 255 data bytes. -/

namespace Sys2Proof

/-- A `seq16` operand can be written: its 16-bit count holds its length (R70, R78). -/
def seqFits (seq : List Byte) : Bool := decide (seq.length ≤ Config.maxSeq)

/-- A `msg` operand can be written: its one-byte `len` holds the number of data bytes (R70, R78, D30). -/
def dataFits (data : List Byte) : Bool := decide (data.length ≤ Config.maxData)

/-- The command has an encoding. -/
def Instr.wellFormed : Instr → Bool
  | .sumInit | .sumAdd _ | .sumRead => true
  | .sumGen seq => seqFits seq
  | .sumCheck seq => seqFits seq
  | .crcInit | .crcUpdate _ | .crcRead => true
  | .crcGen seq => seqFits seq
  | .crcCheck seq => seqFits seq
  | .encAdd _ _ _ data => dataFits data
  | .encCrc _ _ _ data => dataFits data
  | .dec seq => seqFits seq
  | .raSetaddr _ | .raGetaddr => true
  | .raFeed chunk => seqFits chunk
  | .raFlush | .raLevel => true

end Sys2Proof
end

