-- ==== Sys2Proof/Decode.lean ====
section
/-! DEFINITION. The command port's decoder and encoder (spec 30 R70 to R73, R77; opcode_table.json). -/

namespace Sys2Proof

/-- What the decoder finds at the head of the bytes on the command port. -/
inductive Decoded where
  /-- A whole command, and the bytes after it. -/
  | command (i : Instr) (rest : List Byte)
  /-- An opcode byte that is not in the opcode map, consumed alone, and the bytes after it (R73). -/
  | illegal (op : Byte) (rest : List Byte)
  /-- The bytes end before the command does (R77). -/
  | incomplete
  deriving DecidableEq, Repr

/-- `LO16(n) = n mod 256` (R151): the low byte of a 16-bit field, sent first (R43). -/
def lo16 (n : Nat) : Byte := BitVec.ofNat 8 (n % 256)

/-- `HI16(n) = n div 256` (R151): the high byte of a 16-bit field. -/
def hi16 (n : Nat) : Byte := BitVec.ofNat 8 (n / 256)

/-- The number a little-endian byte pair stands for: `n = b0 + 256*b1` (R70). -/
def count16 (b0 b1 : Byte) : Nat := b0.toNat + 256 * b1.toNat

/-- `UNIT = op[7:4]` (R70). -/
def opcodeUnit (op : Byte) : BitVec 4 := op.extractLsb' 4 4

/-- `FN = op[3:0]` (R70). -/
def opcodeFn (op : Byte) : BitVec 4 := op.extractLsb' 0 4

/-- An `imm8` operand: one byte, taken as is (R70). -/
def takeImm8 (mk : Byte → Instr) : List Byte → Decoded
  | b :: rest => .command (mk b) rest
  | [] => .incomplete

/-- A `seq16` operand: a little-endian count `n`, then exactly `n` bytes (R70). -/
def takeSeq16 (mk : List Byte → Instr) : List Byte → Decoded
  | b0 :: b1 :: rest =>
    if rest.length < count16 b0 b1 then .incomplete
    else .command (mk (rest.take (count16 b0 b1))) (rest.drop (count16 b0 b1))
  | _ => .incomplete

/-- A `msg` operand: `dest, src, header, len`, then exactly `len` data bytes (R70). -/
def takeMsg (mk : Byte → Byte → Byte → List Byte → Instr) : List Byte → Decoded
  | dest :: src :: header :: len :: rest =>
    if rest.length < len.toNat then .incomplete
    else .command (mk dest src header (rest.take len.toNat)) (rest.drop len.toNat)
  | _ => .incomplete

/-- Decode the command at the head of `bytes` by the opcode map (R72). The opcode is checked before anything else
(R205); a byte that is not in the map is illegal and takes no operand (R73). -/
def decode : List Byte → Decoded
  | [] => .incomplete
  | op :: bytes =>
    match op.toNat with
    | 0x10 => .command .sumInit bytes
    | 0x11 => takeImm8 .sumAdd bytes
    | 0x12 => .command .sumRead bytes
    | 0x13 => takeSeq16 .sumGen bytes
    | 0x14 => takeSeq16 .sumCheck bytes
    | 0x20 => .command .crcInit bytes
    | 0x21 => takeImm8 .crcUpdate bytes
    | 0x22 => .command .crcRead bytes
    | 0x23 => takeSeq16 .crcGen bytes
    | 0x24 => takeSeq16 .crcCheck bytes
    | 0x30 => takeMsg .encAdd bytes
    | 0x31 => takeMsg .encCrc bytes
    | 0x38 => takeSeq16 .dec bytes
    | 0x40 => takeImm8 .raSetaddr bytes
    | 0x41 => .command .raGetaddr bytes
    | 0x42 => takeSeq16 .raFeed bytes
    | 0x43 => .command .raFlush bytes
    | 0x44 => .command .raLevel bytes
    | _ => .illegal op bytes

/-- The operand layout an opcode selects; `none` where the opcode is illegal (R72, R73). -/
def operandKind (op : Byte) : Option OperandKind :=
  match op.toNat with
  | 0x10 | 0x12 | 0x20 | 0x22 | 0x41 | 0x43 | 0x44 => some .none
  | 0x11 | 0x21 | 0x40 => some .imm8
  | 0x13 | 0x14 | 0x23 | 0x24 | 0x38 | 0x42 => some .seq16
  | 0x30 | 0x31 => some .msg
  | _ => none

/-- The total length of the command that starts with these bytes (R71), from its opcode and its count bytes; a count
byte that is not there yet counts as zero. An illegal opcode is consumed alone (R73). -/
def commandLength (bytes : List Byte) : Nat :=
  match operandKind (bytes.getD 0 0) with
  | none => 1
  | some .none => 1
  | some .imm8 => 2
  | some .seq16 => 3 + count16 (bytes.getD 1 0) (bytes.getD 2 0)
  | some .msg => 5 + (bytes.getD 4 0).toNat

/-- The opcode byte of a command (R72). -/
def opcodeOf : Instr → Byte
  | .sumInit => 0x10
  | .sumAdd _ => 0x11
  | .sumRead => 0x12
  | .sumGen _ => 0x13
  | .sumCheck _ => 0x14
  | .crcInit => 0x20
  | .crcUpdate _ => 0x21
  | .crcRead => 0x22
  | .crcGen _ => 0x23
  | .crcCheck _ => 0x24
  | .encAdd .. => 0x30
  | .encCrc .. => 0x31
  | .dec _ => 0x38
  | .raSetaddr _ => 0x40
  | .raGetaddr => 0x41
  | .raFeed _ => 0x42
  | .raFlush => 0x43
  | .raLevel => 0x44

/-- The bytes of a `seq16` operand: its count, low byte first, then the bytes (R43, R70). -/
def seq16Bytes (seq : List Byte) : List Byte := lo16 seq.length :: hi16 seq.length :: seq

/-- The bytes of a `msg` operand (R70). -/
def msgBytes (dest src header : Byte) (data : List Byte) : List Byte :=
  dest :: src :: header :: lo16 data.length :: data

/-- The operand bytes of a command (R70, R72). -/
def operandBytes : Instr → List Byte
  | .sumInit | .sumRead => []
  | .sumAdd b => [b]
  | .sumGen seq => seq16Bytes seq
  | .sumCheck seq => seq16Bytes seq
  | .crcInit | .crcRead => []
  | .crcUpdate b => [b]
  | .crcGen seq => seq16Bytes seq
  | .crcCheck seq => seq16Bytes seq
  | .encAdd dest src header data => msgBytes dest src header data
  | .encCrc dest src header data => msgBytes dest src header data
  | .dec seq => seq16Bytes seq
  | .raSetaddr a => [a]
  | .raGetaddr | .raFlush | .raLevel => []
  | .raFeed chunk => seq16Bytes chunk

/-- The bytes of a command: one opcode byte followed by its operands, with no padding or separator (R70). -/
def encode (i : Instr) : List Byte := opcodeOf i :: operandBytes i

/-- The command bytes an opcode-table word of `nbits` bits stands for: byte `k` is bits `8k+7 .. 8k` of `w`, every
byte above `nbits` is zero, and the command is as long as its own bytes say (R71). -/
def tableCommand (nbits w : Nat) : List Byte :=
  let given := (List.range ((nbits + 7) / 8)).map fun k => BitVec.ofNat 8 (w / 2 ^ (8 * k))
  let total := commandLength given
  (given ++ List.replicate (total - given.length) 0).take total

/-- The instruction the decoder reads from an opcode-table word. -/
def decodeTableWord (nbits w : Nat) : Option Instr :=
  match decode (tableCommand nbits w) with
  | .command i _ => some i
  | .illegal _ _ => none
  | .incomplete => none

end Sys2Proof
end

