-- ==== Sys2Proof/Machine/State.lean ====
section
/-! DEFINITION. The state of the block as plain data (spec 10 R20 to R30, 20 R40, 70 R230), the logical values of the
frame codec (00 R10), and the reasons a step can stop. -/

namespace Sys2Proof.Machine

/-- Which checksum scheme validated a frame (R10). -/
inductive ChecksumType where
  | additive
  | crc16
  deriving DecidableEq, Repr

/-- A logical message (R10). The header is kept as the raw byte (R67). -/
structure Message where
  destination : Byte
  length : Byte
  source : Byte
  header : Byte
  data : List Byte
  checksumType : ChecksumType
  deriving DecidableEq, Repr

/-- The outcomes of DECODE (R10, R144); the number is the count of bytes consumed. -/
inductive DecodeResult where
  | partialMessage
  | ok (m : Message) (consumed : Nat)
  | checksumError (consumed : Nat)
  deriving DecidableEq, Repr

/-- The status codes of a response (R75). -/
inductive Status where
  | ok
  | partialMessage
  | checksumError
  | illegalCommand
  deriving DecidableEq, Repr

/-- The error outcomes, the block's only "exceptions" (R200). -/
inductive ErrorOutcome where
  /-- Raised by DEC only (R200, R201). -/
  | partialMessage
  /-- Raised by DEC and RA.FEED (R200). -/
  | checksumError
  /-- Raised by an undefined opcode (R73, R200). -/
  | illegalCommand
  deriving DecidableEq, Repr

/-- What can arrive on the command port: a byte, or a reset (R231). -/
inductive PortEvent where
  | byte (b : Byte)
  | reset
  deriving DecidableEq, Repr

/-- Why the machine would stop with a fault. No constructor: the block has no trap (spec 60), every error is a result
in a response (R200), and an incomplete command is "a stuck state, not a fault" (R77). Nobody raises one (log 5). -/
inductive Fault where
  deriving DecidableEq, Repr

/-- Why the model gives a term no meaning. -/
inductive Refusal where
  /-- Raised by `exec` for an instruction without a meaning; no arm answers it now. Safe. -/
  | notModelled (mnemonic : String)
  /-- Raised by a meaning with a `seq16` operand over 65535 bytes, which no command bytes encode (R6, R78, D4); the
  decoder never yields one. Safe (log 4). -/
  | sequenceTooLong
  /-- Raised by ENC.ADD and ENC.CRC with over 255 data bytes, which no command bytes encode (R142, D30, I14 "refuse");
  the decoder never yields one. Safe (log 4). -/
  | dataTooLong
  deriving DecidableEq, Repr

/-- The block. The first four fields are the architectural state (R20); `partialCmd` is the partly received command
(R77, R230); the last two are the block's ports (R40). -/
structure State where
  /-- CRC_REG, the streaming CRC (R23). -/
  crcReg : Word
  /-- SUM_REG, the streaming additive sum (R24). -/
  sumReg : Byte
  /-- OWN_ADDR, the reassembler's own bus address (R25). -/
  ownAddr : Byte
  /-- RXBUF, the receive buffer, oldest byte first (R26, R40). -/
  rxbuf : List Byte
  /-- The bytes received of a command that is not whole yet, in arrival order (R77, R231). -/
  partialCmd : List Byte
  /-- What is still to arrive on the command port, in arrival order (R40, R48; log 1). -/
  cmdPort : List PortEvent
  /-- The response bytes delivered so far on the response port, in order (R40, R48; log 1). -/
  respPort : List Byte
  deriving DecidableEq, Repr

/-- The block right after reset or power-on (R230). The ports hold nothing: DESIGN CHOICE, log 1. -/
def State.reset : State where
  crcReg := 0x0000
  sumReg := 0x00
  ownAddr := Config.ownAddrReset
  rxbuf := []
  partialCmd := []
  cmdPort := []
  respPort := []

end Sys2Proof.Machine
end

