-- ==== Sys2Proof/Machine/Flags.lean ====
section
/-! DEFINITION. The block has no flags register and no condition codes (spec 10 R22): a command's outcome is the status
byte of its own response, whose codes are given here (30 R75), with the other one-byte codes of a response. -/

namespace Sys2Proof.Machine

/-- The status byte of a response (R75). -/
def Status.code : Status → Byte
  | .ok => 0x00
  | .partialMessage => 0x01
  | .checksumError => 0x02
  | .illegalCommand => 0xFF

/-- The status an error outcome is reported with (R200). -/
def ErrorOutcome.status : ErrorOutcome → Status
  | .partialMessage => .partialMessage
  | .checksumError => .checksumError
  | .illegalCommand => .illegalCommand

/-- The `ctype` byte of a message record (R76). -/
def ChecksumType.code : ChecksumType → Byte
  | .additive => 0x00
  | .crc16 => 0x01

/-- The `ok` byte of a validator's response: 1 when it passes, else 0 (R108, R128). -/
def okByte (passed : Bool) : Byte := if passed then 0x01 else 0x00

end Sys2Proof.Machine
end

