-- ==== Sys2Proof/Machine/Ops.lean ====
section
/-! DEFINITION. The named operations over the block's state: the registers, the receive buffer, the response port, the
error outcomes (the block's "exceptions"), reset, and taking the next command from the command port. -/

namespace Sys2Proof.Machine

/-- The outcome of a step or of a command. -/
abbrev Result := Host.Outcome State Fault Refusal

/-! ### Registers (R23 to R25, R30) -/

/-- `CRC_REG <- v`. -/
def State.setCrcReg (s : State) (v : Word) : State := { s with crcReg := v }

/-- `SUM_REG <- v`. -/
def State.setSumReg (s : State) (v : Byte) : State := { s with sumReg := v }

/-- `OWN_ADDR <- v`. -/
def State.setOwnAddr (s : State) (v : Byte) : State := { s with ownAddr := v }

/-- `RXBUF <- v`. -/
def State.setRxbuf (s : State) (v : List Byte) : State := { s with rxbuf := v }

/-- The read-only `LEVEL[15:0] = |RXBUF|` (R30). -/
def State.level (s : State) : Word := BitVec.ofNat 16 s.rxbuf.length

/-! ### The receive buffer (R44, R45): read at the head, changed in three ways only -/

/-- `MemRead(addr, n)`: the `n` bytes from position `addr`, with no side effect (R44). -/
def memRead (buf : List Byte) (addr n : Nat) : List Byte := (buf.drop addr).take n

/-- `Append(s)`: bytes enter at the tail (R45 a). -/
def rxAppend (buf bytes : List Byte) : List Byte := buf ++ bytes

/-- `Consume(n)`: bytes leave from the head (R45 b). -/
def rxConsume (buf : List Byte) (n : Nat) : List Byte := buf.drop n

/-- `Clear()`: all bytes leave at once (R45 c). -/
def rxClear : List Byte := []

/-! ### Responses (R74) and error outcomes (spec 60) -/

/-- `respond(bytes)`: the response leaves on the response port after all earlier ones (R48, R74). -/
def State.respond (s : State) (bytes : List Byte) : State := { s with respPort := s.respPort ++ bytes }

/-- A command that succeeded: status OK, then the result fields in the listed order (R74, R75). -/
def complete (fields : List Byte) (s : State) : Result := .next (s.respond (Status.ok.code :: fields))

/-- An error outcome is taken: its status byte and its recorded information are the response. Nothing is saved, control
goes nowhere, and no state changes beyond what the command itself changed (R200, R206, R207). There is no return: the
next command runs on the state left (R208). -/
def raiseError (e : ErrorOutcome) (info : List Byte) (s : State) : Result :=
  .next (s.respond (e.status.code :: info))

/-- A 16-bit result field, low byte first (R43). -/
def word16 (n : Nat) : List Byte := [lo16 n, hi16 n]

/-! ### Reset (R230, R231) -/

/-- A reset taken from the command port: every register, the buffer and the partly received command are as after
power-on; what is still to arrive stays, and "a response already delivered stays delivered" (R231). -/
def State.afterReset (s : State) : State :=
  { State.reset with cmdPort := s.cmdPort, respPort := s.respPort }

/-! ### The command port (R40, R70, R77, R231) -/

/-- The bytes on the port before the next reset. -/
def portBytes : List PortEvent → List Byte
  | .byte b :: events => b :: portBytes events
  | .reset :: _ => []
  | [] => []

/-- The port from its next reset on. -/
def portFromReset : List PortEvent → List PortEvent
  | .byte _ :: events => portFromReset events
  | .reset :: events => .reset :: events
  | [] => []

/-- Bytes arrive at the command port. -/
def State.receive (s : State) (bytes : List Byte) : State :=
  { s with cmdPort := s.cmdPort ++ bytes.map .byte }

/-- A reset arrives at the command port. -/
def State.receiveReset (s : State) : State := { s with cmdPort := s.cmdPort ++ [.reset] }

/-- What the block holds of its next command, and what is still to arrive, become these. -/
def State.setPort (s : State) (held : List Byte) (events : List PortEvent) : State :=
  { s with partialCmd := held, cmdPort := events }

/-- The bytes the block can see of its next command: those it holds and those that arrive before a reset. -/
def State.commandBytes (s : State) : List Byte := s.partialCmd ++ portBytes s.cmdPort

/-- The block once it has taken a command and `rest` is what follows that command before the next reset. -/
def State.afterCommand (s : State) (rest : List Byte) : State :=
  s.setPort [] (rest.map .byte ++ portFromReset s.cmdPort)

/-- What the block takes from its command port, with the state it then has. -/
inductive Fetched where
  /-- A whole command is taken off the port. -/
  | run (i : Instr) (s : State)
  /-- An illegal opcode byte is taken off the port, alone (R73). -/
  | illegal (s : State)
  /-- A reset is reached while no command is whole (R231). -/
  | reset (s : State)
  /-- The bytes end before the command does: the block holds them and waits for the rest (R77). -/
  | wait (s : State)
  deriving DecidableEq, Repr

/-- Take the next command, illegal opcode or reset from the command port (R70, R73, R77, R231; log 3). -/
def fetch (s : State) : Fetched :=
  match decode s.commandBytes with
  | .command i rest => .run i (s.afterCommand rest)
  | .illegal _ rest => .illegal (s.afterCommand rest)
  | .incomplete =>
    match portFromReset s.cmdPort with
    | .reset :: events => .reset (s.setPort [] events)
    | _ => .wait (s.setPort s.commandBytes [])

/-- The command of an opcode-table word stands next on the command port, and no partly received command stands before
it (log 7). -/
def State.placeCommand (s : State) (nbits w : Nat) : State :=
  s.setPort [] ((tableCommand nbits w).map .byte ++ s.cmdPort)

end Sys2Proof.Machine
end

