-- ==== Sys2Proof/Machine/Operands.lean ====
section
/-! DEFINITION. Operand forms of the block's commands (spec 30 R70): none, `imm8` taken as is, and the two counted forms,
whose length limits are checked here once. -/

namespace Sys2Proof.Machine

/-- Run a command on a `seq16` operand. A sequence over 65535 bytes is no operand of any command (R6, R78, D4): it is
refused by name (log 4). -/
def withSeq16 (seq : List Byte) (body : Result) : Result :=
  if seqFits seq then body else .refused .sequenceTooLong

/-- Run a command on a `msg` operand. Over 255 data bytes cannot be written (R142, D30; I14 "refuse"): it is refused by
name (log 4). -/
def withMsg (data : List Byte) (body : Result) : Result :=
  if dataFits data then body else .refused .dataTooLong

end Sys2Proof.Machine
end

