-- ==== Sys2Proof/Machine/Additive.lean ====
section
/-! DEFINITION. The additive-checksum generator and validator (spec 40 R100 to R109). -/

namespace Sys2Proof.Machine

/-- `SUM_8(s) = sum(s) mod 256`, the sum taken at full width and then reduced (R100). -/
def sum8 (seq : List Byte) : Byte := BitVec.ofNat 8 ((seq.map BitVec.toNat).sum % 256)

/-- The byte that brings a running sum to 0 mod 256: `(256 - sum) mod 256` (R101, R106). -/
def checksumOf (sum : Byte) : Byte := BitVec.ofNat 8 ((256 - sum.toNat) % 256)

/-- `CHECKSUM(s)` (R101): 0 where `SUM_8(s)` is 0, else `256 - SUM_8(s)`. -/
def checksum (seq : List Byte) : Byte := checksumOf (sum8 seq)

/-- `SUM_VALID(f) = (SUM_8(f) == 0)`, for a sequence of any length (R102). -/
def sumValid (seq : List Byte) : Bool := sum8 seq == 0

/-- The payload sum `SUM_8([header] ++ data)`, a derived quantity with no command of its own (R109). -/
def payloadSum (header : Byte) (data : List Byte) : Byte := sum8 (header :: data)

/-- SUM.INIT (R104). -/
def execSumInit (s : State) : Result := complete [] (s.setSumReg 0x00)

/-- SUM.ADD b (R105): the carry out of bit 7 is discarded. -/
def execSumAdd (b : Byte) (s : State) : Result := complete [] (s.setSumReg (s.sumReg + b))

/-- SUM.READ (R106). -/
def execSumRead (s : State) : Result := complete [s.sumReg, checksumOf s.sumReg] s

/-- SUM.GEN s (R107). -/
def execSumGen (seq : List Byte) (s : State) : Result := withSeq16 seq (complete [checksum seq] s)

/-- SUM.CHECK f (R108): a failed check is a result, not an error. -/
def execSumCheck (seq : List Byte) (s : State) : Result := withSeq16 seq (complete [okByte (sumValid seq)] s)

end Sys2Proof.Machine
end

