-- ==== Sys2Proof/Machine/Crc.lean ====
section
/-! DEFINITION. The CRC-16 engine and validator (spec 41 R120 to R129). -/

namespace Sys2Proof.Machine

/-- The polynomial 0x1021 (R6, R120). -/
def crcPolynomial : Word := 0x1021

/-- The initial register value 0 (R6, R121, R124). -/
def crcInitial : Word := 0x0000

/-- One of the eight iterations of a byte step: the top bit is tested before the shift (R120). -/
def crcShift (r : Word) : Word :=
  if r.getLsbD 15 then (r <<< 1) ^^^ crcPolynomial else r <<< 1

/-- `CRC_STEP(c, b)` (R120): the byte goes into bits 15..8 of the register, then eight iterations. -/
def crcStep (c : Word) (b : Byte) : Word := Nat.repeat crcShift 8 (c ^^^ (b.setWidth 16 <<< 8))

/-- `CRC_16(s)` (R121): a left fold of the byte step from the initial register; no final XOR. -/
def crc16 (seq : List Byte) : Word := seq.foldl crcStep crcInitial

/-- `LO(c) = c[7:0]` (R122). -/
def crcLo (c : Word) : Byte := c.extractLsb' 0 8

/-- `HI(c) = c[15:8]` (R122). -/
def crcHi (c : Word) : Byte := c.extractLsb' 8 8

/-- `f without {2, n-1}`: the sequence with byte index 2 and its last byte removed (R8, R123). -/
def withoutCrcBytes (f : List Byte) : List Byte := (f.eraseIdx (f.length - 1)).eraseIdx 2

/-- `CRC_VALID(f)` (R123): false below 5 bytes; else the two removed bytes are the CRC of the rest, low then high. -/
def crcValid (f : List Byte) : Bool :=
  if f.length < 5 then false
  else
    let c := crc16 (withoutCrcBytes f)
    crcLo c == f.getD 2 0 && crcHi c == f.getD (f.length - 1) 0

/-- CRC.INIT (R124). -/
def execCrcInit (s : State) : Result := complete [] (s.setCrcReg crcInitial)

/-- CRC.UPDATE b (R125). -/
def execCrcUpdate (b : Byte) (s : State) : Result := complete [] (s.setCrcReg (crcStep s.crcReg b))

/-- CRC.READ (R126): low byte first. -/
def execCrcRead (s : State) : Result := complete [crcLo s.crcReg, crcHi s.crcReg] s

/-- CRC.GEN s (R127): a private engine, CRC_REG is untouched. -/
def execCrcGen (seq : List Byte) (s : State) : Result :=
  withSeq16 seq (complete [crcLo (crc16 seq), crcHi (crc16 seq)] s)

/-- CRC.CHECK f (R128): the additive test is not applied first, and `len + 5` is not checked. -/
def execCrcCheck (seq : List Byte) (s : State) : Result := withSeq16 seq (complete [okByte (crcValid seq)] s)

end Sys2Proof.Machine
end

