-- ==== Sys2Proof/Machine/Codec.lean ====
section
/-! DEFINITION. The frame encoder and decoder (spec 30 R60 to R67, R76; 42 R140 to R154). -/

namespace Sys2Proof.Machine

/-- HOST_ADDR, the source reported for CRC16 frames (R6, R148). -/
def hostAddr : Byte := 0x01

/-- The length byte of a frame that carries these data bytes (R140). -/
def lengthByte (data : List Byte) : Byte := BitVec.ofNat 8 data.length

/-- `ENCODE_ADD` (R60, R140). -/
def encodeAdd (dest src header : Byte) (data : List Byte) : List Byte :=
  let body := [dest, lengthByte data, src, header] ++ data
  body ++ [checksum body]

/-- `ENCODE_CRC` (R61, R141): the source is neither sent nor covered. -/
def encodeCrc (dest _src header : Byte) (data : List Byte) : List Byte :=
  let c := crc16 ([dest, lengthByte data, header] ++ data)
  [dest, lengthByte data, crcLo c, header] ++ data ++ [crcHi c]

/-- The length of the frame whose byte 1 is `len`: `len + 5`, at full width (R62, D12). -/
def frameLength (len : Byte) : Nat := len.toNat + 5

/-- The message of a candidate frame (R65), with the source and the tag of the scheme that validated it. -/
def frameMessage (f : List Byte) (source : Byte) (scheme : ChecksumType) : Message where
  destination := f.getD 0 0
  length := f.getD 1 0
  source := source
  header := f.getD 3 0
  data := (f.drop 4).take (f.length - 1 - 4)
  checksumType := scheme

/-- A candidate frame is validated: additive first, then CRC16, else a checksum error (R147 to R150, R203). -/
def validateFrame (f : List Byte) : DecodeResult :=
  if sumValid f then .ok (frameMessage f (f.getD 2 0) .additive) f.length
  else if crcValid f then .ok (frameMessage f hostAddr .crc16) f.length
  else .checksumError f.length

/-- `DECODE(buf)` (R144): partial below 2 bytes or below `buf[1] + 5` (R145), else the candidate frame is extracted from
the head (R146) and validated. -/
def decodeFrame (buf : List Byte) : DecodeResult :=
  if buf.length < 2 then .partialMessage
  else if buf.length < frameLength (buf.getD 1 0) then .partialMessage
  else validateFrame (memRead buf 0 (frameLength (buf.getD 1 0)))

/-- A message record `[destination][length][source][header][ctype][data]` (R76). -/
def messageRecord (m : Message) : List Byte :=
  [m.destination, m.length, m.source, m.header, m.checksumType.code] ++ m.data

/-- ENC.ADD (R142). -/
def execEncAdd (dest src header : Byte) (data : List Byte) (s : State) : Result :=
  withMsg data (complete (encodeAdd dest src header data) s)

/-- ENC.CRC (R143): the `src` operand is accepted and ignored. -/
def execEncCrc (dest src header : Byte) (data : List Byte) (s : State) : Result :=
  withMsg data (complete (encodeCrc dest src header data) s)

/-- How DEC reports an outcome of DECODE (R151). -/
def reportDecode (r : DecodeResult) (s : State) : Result :=
  match r with
  | .partialMessage => raiseError .partialMessage (word16 0) s
  | .checksumError n => raiseError .checksumError (word16 n) s
  | .ok m n => complete (word16 n ++ messageRecord m) s

/-- DEC s (R151): no filtering, no access to RXBUF. -/
def execDec (seq : List Byte) (s : State) : Result := withSeq16 seq (reportDecode (decodeFrame seq) s)

end Sys2Proof.Machine
end

