-- ==== Sys2Proof/Machine/Reassembler.lean ====
section
/-! DEFINITION. The stream reassembler (spec 43 R170 to R185). -/

namespace Sys2Proof.Machine

/-- What one FEED leaves in RXBUF and returns: the accepted messages in stream order, and the error indication. -/
structure FeedResult where
  rxbuf : List Byte
  messages : List Message
  error : Bool
  deriving DecidableEq, Repr

/-- A message joins the output only if it is addressed to this node (R173). -/
def accept (own : Byte) (m : Message) : List Message := if m.destination = own then [m] else []

/-- The decode loop of RA_FEED (R171), from the head of the buffer, with a bound on its passes. Each pass that does not
return consumes at least 5 bytes (R172), so the buffer's length is bound enough. -/
def feedLoop (own : Byte) : Nat → List Byte → FeedResult
  | 0, buf => { rxbuf := buf, messages := [], error := false }
  | passes + 1, buf =>
    match decodeFrame buf with
    | .partialMessage => { rxbuf := buf, messages := [], error := false }
    | .ok m n =>
      let r := feedLoop own passes (rxConsume buf n)
      { r with messages := accept own m ++ r.messages }
    | .checksumError _ => { rxbuf := rxClear, messages := [], error := true }

/-- `RA_FEED(chunk)` (R171): append the chunk, then decode from the head until the buffer is partial or an error
occurs. An error clears the buffer, the rest of the chunk with it (R174); messages accepted before it are kept (R175). -/
def raFeed (own : Byte) (rxbuf chunk : List Byte) : FeedResult :=
  feedLoop own (rxAppend rxbuf chunk).length (rxAppend rxbuf chunk)

/-- One byte of the streaming realisation (R177). `error` is also its discard mode: both are set together. -/
def streamByte (own : Byte) (r : FeedResult) (x : Byte) : FeedResult :=
  if r.error then r
  else
    let buf := rxAppend r.rxbuf [x]
    match decodeFrame buf with
    | .partialMessage => { r with rxbuf := buf }
    | .ok m n => { r with rxbuf := rxConsume buf n, messages := r.messages ++ accept own m }
    | .checksumError _ => { r with rxbuf := rxClear, error := true }

/-- The byte-serial process of R177, the hardware form of RA_FEED: it holds at most RXBUF_CAP bytes at any time. -/
def streamFeed (own : Byte) (rxbuf chunk : List Byte) : FeedResult :=
  chunk.foldl (streamByte own) { rxbuf := rxbuf, messages := [], error := false }

/-- The result fields of RA.FEED: the message count, then the records in order (R179). -/
def feedFields (messages : List Message) : List Byte :=
  word16 messages.length ++ messages.flatMap messageRecord

/-- How RA.FEED reports (R179): status 0x00, or ChecksumError with the messages accepted before it (R175, R206). -/
def reportFeed (r : FeedResult) (s : State) : Result :=
  if r.error then raiseError .checksumError (feedFields r.messages) s else complete (feedFields r.messages) s

/-- RA.FEED s (R179). One FEED reads a single value of OWN_ADDR (R185). -/
def execRaFeed (chunk : List Byte) (s : State) : Result :=
  withSeq16 chunk
    (reportFeed (raFeed s.ownAddr s.rxbuf chunk) (s.setRxbuf (raFeed s.ownAddr s.rxbuf chunk).rxbuf))

/-- RA.SETADDR a (R180). -/
def execRaSetaddr (a : Byte) (s : State) : Result := complete [] (s.setOwnAddr a)

/-- RA.GETADDR (R181). -/
def execRaGetaddr (s : State) : Result := complete [s.ownAddr] s

/-- RA.LEVEL (R182): the level in 16 bits, low byte first. -/
def execRaLevel (s : State) : Result := complete (word16 s.level.toNat) s

/-- RA.FLUSH (R184): the level before the clear is the number of bytes discarded. -/
def execRaFlush (s : State) : Result := complete (word16 s.level.toNat) (s.setRxbuf rxClear)

end Sys2Proof.Machine
end

