-- ==== Sys2Proof/Machine/Dispatch.lean ====
section
/-! DEFINITION. One arm per command: its meaning. -/

namespace Sys2Proof.Machine

def exec (i : Instr) (s : State) : Host.Outcome State Fault Refusal :=
  match i with
  -- additive unit (spec 40)
  | .sumInit => Sys2Proof.Machine.execSumInit s
  | .sumAdd b => Sys2Proof.Machine.execSumAdd b s
  | .sumRead => Sys2Proof.Machine.execSumRead s
  | .sumGen seq => Sys2Proof.Machine.execSumGen seq s
  | .sumCheck seq => Sys2Proof.Machine.execSumCheck seq s
  -- CRC unit (spec 41)
  | .crcInit => Sys2Proof.Machine.execCrcInit s
  | .crcUpdate b => Sys2Proof.Machine.execCrcUpdate b s
  | .crcRead => Sys2Proof.Machine.execCrcRead s
  | .crcGen seq => Sys2Proof.Machine.execCrcGen seq s
  | .crcCheck seq => Sys2Proof.Machine.execCrcCheck seq s
  -- frame codec (spec 42)
  | .encAdd dest src header data => Sys2Proof.Machine.execEncAdd dest src header data s
  | .encCrc dest src header data => Sys2Proof.Machine.execEncCrc dest src header data s
  | .dec seq => Sys2Proof.Machine.execDec seq s
  -- reassembler (spec 43)
  | .raSetaddr a => Sys2Proof.Machine.execRaSetaddr a s
  | .raGetaddr => Sys2Proof.Machine.execRaGetaddr s
  | .raFeed chunk => Sys2Proof.Machine.execRaFeed chunk s
  | .raFlush => Sys2Proof.Machine.execRaFlush s
  | .raLevel => Sys2Proof.Machine.execRaLevel s

end Sys2Proof.Machine
end

