-- ==== Sys2Proof/Machine/Step.lean ====
section
/-! DEFINITION. One step of the block: one transaction on its command port (spec 00 R5, 20 R47, R48). -/

namespace Sys2Proof.Machine

/-- One step: run the next whole command, answer an illegal opcode byte (R73), take a reset (R231), or hold the bytes
that arrived and wait (R77). -/
def step (s : State) : Host.Outcome State Fault Refusal :=
  match fetch s with
  | .run i s' => exec i s'
  | .illegal s' => raiseError .illegalCommand [] s'
  | .reset s' => .next s'.afterReset
  | .wait s' => .next s'

/-- `s` with the command of an opcode-table word next on its command port. -/
def State.withFetchWord (s : State) (nbits w : Nat) : State := s.placeCommand nbits w

end Sys2Proof.Machine
end

