-- ==== Sys2Proof/Machine/Assembler.lean ====
section
/-! DEFINITION. The assembler's line syntax and the pseudo-instructions (spec 30 R78, R79, D27): one line of text to the
commands it stands for, or a refusal. What R78 leaves open about the text is log 8. -/

namespace Sys2Proof.Machine

/-- `CRC.SEQ [s0 .. sk]` (R79). -/
def crcSeq (seq : List Byte) : List Instr := .crcInit :: seq.map .crcUpdate ++ [.crcRead]

/-- `SUM.SEQ [s0 .. sk]` (R79). -/
def sumSeq (seq : List Byte) : List Instr := .sumInit :: seq.map .sumAdd ++ [.sumRead]

/-- `RA.PUSH b` feeds a one-byte chunk (R79). -/
def raPush (b : Byte) : List Instr := [.raFeed [b]]

/-- `RA.RESET` is RA.FLUSH (R79). -/
def raReset : List Instr := [.raFlush]

/-- The tokens of a line. -/
inductive Token where
  | word (w : String)
  | comma
  | openBracket
  | closeBracket
  deriving DecidableEq, Repr

/-- The token a finished word makes; its letters are held last first. -/
def flushWord (letters : List Char) : List Token :=
  if letters.isEmpty then [] else [.word (String.ofList letters.reverse)]

/-- Cut a line into tokens; a comment begins with `;` (R78). -/
def tokenize (letters : List Char) : List Char → List Token
  | [] => flushWord letters
  | c :: cs =>
    if c = ';' then flushWord letters
    else if c = ' ' ∨ c = '\t' then flushWord letters ++ tokenize [] cs
    else if c = ',' then flushWord letters ++ .comma :: tokenize [] cs
    else if c = '[' then flushWord letters ++ .openBracket :: tokenize [] cs
    else if c = ']' then flushWord letters ++ .closeBracket :: tokenize [] cs
    else tokenize (c :: letters) cs

/-- The value of a digit in a base up to 16. -/
def digit (base : Nat) (c : Char) : Option Nat :=
  let v :=
    if '0' ≤ c ∧ c ≤ '9' then c.toNat - '0'.toNat
    else if 'A' ≤ c ∧ c ≤ 'F' then c.toNat - 'A'.toNat + 10
    else if 'a' ≤ c ∧ c ≤ 'f' then c.toNat - 'a'.toNat + 10
    else base
  if v < base then some v else none

/-- The number a non-empty run of digits stands for. -/
def digits (base : Nat) (cs : List Char) : Option Nat :=
  if cs.isEmpty then none
  else cs.foldlM (fun n c => (digit base c).map fun v => base * n + v) 0

/-- An `imm8` or `msg` byte: hexadecimal with the `0x` prefix, or decimal, and 0..255 (R78). -/
def numberByte (w : String) : Option Byte :=
  let value :=
    match w.toList with
    | '0' :: 'x' :: cs => digits 16 cs
    | cs => digits 10 cs
  value.bind fun n => if n < 256 then some (BitVec.ofNat 8 n) else none

/-- One byte of a bracketed list: one or two hexadecimal digits without a prefix (R78; log 8). -/
def hexByte (w : String) : Option Byte :=
  if w.toList.length ≤ 2 then (digits 16 w.toList).map (BitVec.ofNat 8) else none

/-- The bytes of a bracketed list, up to its closing bracket, with which the line ends. -/
def bracketed : List Token → Option (List Byte)
  | [.closeBracket] => some []
  | .word w :: ts => (hexByte w).bind fun b => (bracketed ts).map (b :: ·)
  | _ => none

/-- A line without operands. -/
def asmNone (is : List Instr) (ts : List Token) : Option (List Instr) := if ts = [] then some is else none

/-- A line with one `imm8` operand. -/
def asmImm8 (mk : Byte → List Instr) : List Token → Option (List Instr)
  | [.word w] => (numberByte w).map mk
  | _ => none

/-- A line with a bracketed sequence; "a sequence longer than 65535 bytes ... is refused" (R78). -/
def asmSeq (mk : List Byte → List Instr) : List Token → Option (List Instr)
  | .openBracket :: ts => (bracketed ts).bind fun seq => if seqFits seq then some (mk seq) else none
  | _ => none

/-- A line with a `msg` operand `dest, src, header, [data]`; "data longer than 255 bytes is refused" (R78). -/
def asmMsg (mk : Byte → Byte → Byte → List Byte → Instr) : List Token → Option (List Instr)
  | .word d :: .comma :: .word s :: .comma :: .word h :: .comma :: .openBracket :: ts =>
    (numberByte d).bind fun dest => (numberByte s).bind fun src => (numberByte h).bind fun header =>
      (bracketed ts).bind fun data => if dataFits data then some [mk dest src header data] else none
  | _ => none

/-- The commands a line's mnemonic and operands stand for (R78, R79). -/
def assembleOperation (mnemonic : String) (ts : List Token) : Option (List Instr) :=
  match mnemonic with
  | "SUM.INIT" => asmNone [.sumInit] ts
  | "SUM.ADD" => asmImm8 (fun b => [.sumAdd b]) ts
  | "SUM.READ" => asmNone [.sumRead] ts
  | "SUM.GEN" => asmSeq (fun q => [.sumGen q]) ts
  | "SUM.CHECK" => asmSeq (fun q => [.sumCheck q]) ts
  | "CRC.INIT" => asmNone [.crcInit] ts
  | "CRC.UPDATE" => asmImm8 (fun b => [.crcUpdate b]) ts
  | "CRC.READ" => asmNone [.crcRead] ts
  | "CRC.GEN" => asmSeq (fun q => [.crcGen q]) ts
  | "CRC.CHECK" => asmSeq (fun q => [.crcCheck q]) ts
  | "ENC.ADD" => asmMsg .encAdd ts
  | "ENC.CRC" => asmMsg .encCrc ts
  | "DEC" => asmSeq (fun q => [.dec q]) ts
  | "RA.SETADDR" => asmImm8 (fun a => [.raSetaddr a]) ts
  | "RA.GETADDR" => asmNone [.raGetaddr] ts
  | "RA.FEED" => asmSeq (fun q => [.raFeed q]) ts
  | "RA.FLUSH" => asmNone [.raFlush] ts
  | "RA.LEVEL" => asmNone [.raLevel] ts
  | "CRC.SEQ" => asmSeq crcSeq ts
  | "SUM.SEQ" => asmSeq sumSeq ts
  | "RA.PUSH" => asmImm8 raPush ts
  | "RA.RESET" => asmNone raReset ts
  | _ => none

/-- Assemble one line (R78): a blank line or a comment stands for no command; `none` refuses the line. -/
def assembleLine (line : String) : Option (List Instr) :=
  match tokenize [] line.toList with
  | [] => some []
  | .word mnemonic :: ts => assembleOperation mnemonic ts
  | _ => none

/-- The command bytes of a program text, one command per line (R78). -/
def assemble (lines : List String) : Option (List Byte) :=
  (lines.mapM assembleLine).map fun commands => commands.flatten.flatMap encode

end Sys2Proof.Machine
end

