-- ==== Sys2Proof/Machine/Response.lean ====
section
/-! DEFINITION. How a reader of the response port finds a response's length: a response has no length prefix (spec 30
R74), so its length comes from the command it answers and from the counts in it. -/

namespace Sys2Proof.Machine

/-- The length of `count` message records at the head of `bytes`: each is `5 + record[1]` bytes (R74, R76). -/
def recordsLength : Nat → List Byte → Nat
  | 0, _ => 0
  | count + 1, bytes =>
    let here := 5 + (bytes.getD 1 0).toNat
    here + recordsLength count (bytes.drop here)

/-- The length of the response at the head of `bytes` that answers command `i` (R72, R74): status byte and result
fields. A frame is `frame[1] + 5` bytes, RA.FEED carries `k` records, DEC carries a record only when its status is OK. -/
def responseLength (i : Instr) (bytes : List Byte) : Nat :=
  match i with
  | .sumInit | .sumAdd _ | .crcInit | .crcUpdate _ | .raSetaddr _ => 1
  | .sumGen _ | .sumCheck _ | .crcCheck _ | .raGetaddr => 2
  | .sumRead | .crcRead | .crcGen _ | .raFlush | .raLevel => 3
  | .encAdd .. | .encCrc .. => 1 + frameLength (bytes.getD 2 0)
  | .dec _ => if bytes.getD 0 0 = Status.ok.code then 3 + recordsLength 1 (bytes.drop 3) else 3
  | .raFeed _ => 3 + recordsLength (count16 (bytes.getD 1 0) (bytes.getD 2 0)) (bytes.drop 3)

end Sys2Proof.Machine
end

