-- ==== Sys2Proof/Safety.lean ====
section
/-! DEFINITION. What counts as a safe run of the block, in the terms the statements use: the invariant between commands
(spec 10 R27, 30 R77), which commands may change state (20 R47), running commands in order (20 R48), and the texts of an assembler line's
operands (30 R78). -/

namespace Sys2Proof.Machine

/-- The buffer holds no complete candidate frame (R27): it is empty or a proper prefix of one frame. -/
abbrev holdsNoWholeFrame (buf : List Byte) : Prop :=
  buf.length < 2 ∨ buf.length < (buf.getD 1 0).toNat + 5

/-- Between commands RXBUF holds no whole frame (R27) and the command port's latch holds no whole command (R77). -/
abbrev State.Inv (s : State) : Prop := holdsNoWholeFrame s.rxbuf ∧ decode s.partialCmd = .incomplete

/-- The seven commands that may change architectural state (R47). -/
def mayChangeState : Instr → Bool
  | .sumInit | .sumAdd _ | .crcInit | .crcUpdate _ | .raSetaddr _ | .raFeed _ | .raFlush => true
  | .sumRead | .sumGen _ | .sumCheck _ | .crcRead | .crcGen _ | .crcCheck _ => false
  | .encAdd .. | .encCrc .. | .dec _ | .raGetaddr | .raLevel => false

/-- Run commands one after another (R48), stopping at the first that does not answer a next state. -/
def execAll : List Instr → State → Result
  | [], s => .next s
  | i :: is, s =>
    match exec i s with
    | .next s' => execAll is s'
    | .fault r => .fault r
    | .refused r => .refused r

/-- Feed chunks one after another (R178): the buffer that is left, the messages of all, and whether any met an error. -/
def feedChunks (own : Byte) : List Byte → List (List Byte) → FeedResult
  | rxbuf, [] => { rxbuf := rxbuf, messages := [], error := false }
  | rxbuf, chunk :: chunks =>
    let r := raFeed own rxbuf chunk
    let later := feedChunks own r.rxbuf chunks
    { rxbuf := later.rxbuf, messages := r.messages ++ later.messages, error := r.error || later.error }

/-- The bytes of a command sequence on the command port. -/
def encodeAll (is : List Instr) : List Byte := is.flatMap encode

/-- The texts of a number (R78): decimal, or hexadecimal with the `0x` prefix and digits of either case (log 8). -/
def numeralTexts (n : Nat) : List String :=
  [toString n, "0x" ++ String.ofList (Nat.toDigits 16 n), "0x" ++ String.ofList ((Nat.toDigits 16 n).map Char.toUpper)]

/-- The text between the brackets of a sequence (R78): two hexadecimal digits for each byte, `letter` fixing their case
(log 8), a space between bytes. -/
def hexList (letter : Char → Char) (seq : List Byte) : String :=
  " ".intercalate (seq.map fun b =>
    String.ofList [letter (Nat.digitChar (b.toNat / 16)), letter (Nat.digitChar (b.toNat % 16))])

end Sys2Proof.Machine
end

