-- ==== Sys2Proof/Certificates/Slice0/Obligations.lean ====
section
/-! DEFINITION. The statements for the provers, by spec file. A meaning's statement gives the whole next state, so it is
the command's result, its frame and its completion in one: what the record update does not name is unchanged. -/

open Sys2Proof Sys2Proof.Machine

/-! ### Additive unit (spec 40) -/

/-- R100, R101, R109: SUM_8 is the full-width sum mod 256; CHECKSUM is the byte that brings it to 0, and what an additive
frame carries; the payload sum, and the frame's checksum in terms of it. -/
def Obligations.ChecksumIsTheByteThatZeroesTheSum : Prop :=
  ∀ (seq : List Byte) (b : Byte),
    (sum8 seq).toNat = (seq.map BitVec.toNat).sum % 256 ∧ sum8 [] = 0 ∧
    (sum8 (seq ++ [b])).toNat = ((sum8 seq).toNat + b.toNat) % 256 ∧
    sum8 (seq ++ [checksum seq]) = 0 ∧
    (sum8 seq = 0 → checksum seq = 0) ∧ (sum8 seq ≠ 0 → (checksum seq).toNat = 256 - (sum8 seq).toNat) ∧
    (checksum seq).toNat = (256 - (sum8 seq).toNat) % 256 ∧ checksum seq = -(sum8 seq) ∧
    ∀ (dest src header : Byte) (data : List Byte), ∃ len : Byte,
      encodeAdd dest src header data =
        ([dest, len, src, header] ++ data) ++ [checksum ([dest, len, src, header] ++ data)] ∧
      payloadSum header data = sum8 ([header] ++ data) ∧
      (checksum ([dest, len, src] ++ [header] ++ data)).toNat =
        (256 - (dest.toNat + len.toNat + src.toNat + (payloadSum header data).toNat) % 256) % 256

/-- R103: exactly one checksum byte validates, and every encoded additive frame sums to 0 mod 256. -/
def Obligations.ExactlyOneChecksumByteValidates : Prop :=
  ∀ seq : List Byte,
    sumValid (seq ++ [checksum seq]) = true ∧ (∀ c : Byte, sumValid (seq ++ [c]) = true → c = checksum seq) ∧
    ∀ (dest src header : Byte) (data : List Byte),
      ((encodeAdd dest src header data).map BitVec.toNat).sum % 256 = 0

/-- R104. -/
def Obligations.SumInitClearsSumReg : Prop :=
  ∀ s : State,
    exec .sumInit s = .next { s with sumReg := 0x00, respPort := s.respPort ++ [0x00] } ∧
    (s.sumReg = 0x00 → exec .sumInit s = .next { s with respPort := s.respPort ++ [0x00] })

/-- R105. -/
def Obligations.SumAddAddsModulo256 : Prop :=
  ∀ (b : Byte) (s : State),
    exec (.sumAdd b) s =
      .next { s with
        sumReg := BitVec.ofNat 8 ((s.sumReg.toNat + b.toNat) % 256), respPort := s.respPort ++ [0x00] } ∧
    exec (.sumAdd 0x00) s = .next { s with respPort := s.respPort ++ [0x00] } ∧
    exec (.sumAdd 0x01) { s with sumReg := 0xFF } =
      .next { s with sumReg := 0x00, respPort := s.respPort ++ [0x00] } ∧
    exec (.sumAdd 0x05) { s with sumReg := 0xFE } =
      .next { s with sumReg := 0x03, respPort := s.respPort ++ [0x00] }

/-- R106. -/
def Obligations.SumReadReturnsSumAndChecksum : Prop :=
  ∀ s : State,
    exec .sumRead s =
      .next { s with
        respPort := s.respPort ++ [0x00, s.sumReg, BitVec.ofNat 8 ((256 - s.sumReg.toNat) % 256)] } ∧
    exec .sumRead { s with sumReg := 0x00 } =
      .next { s with sumReg := 0x00, respPort := s.respPort ++ [0x00, 0x00, 0x00] } ∧
    execAll [.sumInit, .sumAdd 0x02, .sumAdd 0x00, .sumAdd 0x01, .sumAdd 0xF5, .sumRead] s =
      .next { s with
        sumReg := 0xF8, respPort := s.respPort ++ [0x00, 0x00, 0x00, 0x00, 0x00, 0x00, 0xF8, 0x08] }

/-- R107. -/
def Obligations.SumGenReturnsTheChecksum : Prop :=
  ∀ (seq : List Byte) (s : State), seq.length ≤ 65535 →
    exec (.sumGen seq) s = .next { s with respPort := s.respPort ++ [0x00, checksum seq] } ∧
    ((seq.map BitVec.toNat).sum % 256 = 0 →
      exec (.sumGen seq) s = .next { s with respPort := s.respPort ++ [0x00, 0x00] }) ∧
    exec (.sumGen []) s = .next { s with respPort := s.respPort ++ [0x00, 0x00] } ∧
    exec (.sumGen [0x02, 0x00, 0x01, 0xF5]) s = .next { s with respPort := s.respPort ++ [0x00, 0x08] }

/-- R108. -/
def Obligations.SumCheckReportsWhetherTheSumIsZero : Prop :=
  ∀ (seq : List Byte) (s : State), seq.length ≤ 65535 →
    exec (.sumCheck seq) s =
      .next { s with
        respPort := s.respPort ++ [0x00, if (seq.map BitVec.toNat).sum % 256 = 0 then 0x01 else 0x00] } ∧
    exec (.sumCheck []) s = .next { s with respPort := s.respPort ++ [0x00, 0x01] } ∧
    exec (.sumCheck [0x02, 0x00, 0x01, 0xF5, 0x08]) s = .next { s with respPort := s.respPort ++ [0x00, 0x01] } ∧
    exec (.sumCheck [0x02, 0x00, 0x01, 0xFE, 0x00]) s = .next { s with respPort := s.respPort ++ [0x00, 0x00] }

/-! ### CRC unit (spec 41) -/

/-- R120, over numbers: the byte goes into bits 15..8; eight times the top bit is tested, then the register is doubled
mod 2^16 and 0x1021 is XORed in where that bit was set. -/
def Obligations.CrcStepIsEightShiftsOfThePolynomial : Prop :=
  ∀ (c : Word) (b : Byte),
    (crcStep c b).toNat =
      Nat.repeat
        (fun r : Nat => if 32768 ≤ r then Nat.xor (r * 2 % 65536) 0x1021 else r * 2 % 65536) 8
        (Nat.xor c.toNat (b.toNat * 256))

/-- R121: a left fold of the byte step from 0; leading zero bytes do not change it; the rule's values. -/
def Obligations.Crc16IsALeftFoldFromZero : Prop :=
  ∀ (seq : List Byte) (b : Byte) (n : Nat),
    crc16 [] = 0x0000 ∧ crc16 (seq ++ [b]) = crcStep (crc16 seq) b ∧ crcStep 0x0000 0x00 = 0x0000 ∧
    crc16 (List.replicate n 0x00 ++ seq) = crc16 seq ∧ crc16 (List.replicate n 0x00) = 0x0000 ∧
    crc16 [0x00, 0x00, 0x00, 0x05] = 0x50A5 ∧ crc16 [0x05] = 0x50A5 ∧
    crc16 [0x31, 0x32, 0x33, 0x34, 0x35, 0x36, 0x37, 0x38, 0x39] = 0x31C3

/-- R123: the validator; for a whole frame the CRC covers destination, length, header and data; the decoder never
applies it below 5 bytes. -/
def Obligations.CrcValidComparesTheTwoRemovedBytes : Prop :=
  ∀ f : List Byte,
    (f.length < 5 → crcValid f = false) ∧
    (5 ≤ f.length →
      (crcValid f = true ↔
        crcLo (crc16 ([f.getD 0 0, f.getD 1 0, f.getD 3 0] ++ (f.drop 4).take (f.length - 5))) = f.getD 2 0 ∧
        crcHi (crc16 ([f.getD 0 0, f.getD 1 0, f.getD 3 0] ++ (f.drop 4).take (f.length - 5))) =
          f.getD (f.length - 1) 0)) ∧
    (decodeFrame f ≠ .partialMessage → 5 ≤ (f.take (frameLength (f.getD 1 0))).length)

/-- R124. -/
def Obligations.CrcInitClearsCrcReg : Prop :=
  ∀ s : State,
    exec .crcInit s = .next { s with crcReg := 0x0000, respPort := s.respPort ++ [0x00] } ∧
    exec .crcInit { s with crcReg := 0xBEEF } =
      .next { s with crcReg := 0x0000, respPort := s.respPort ++ [0x00] }

/-- R125. -/
def Obligations.CrcUpdateStepsCrcReg : Prop :=
  ∀ (b : Byte) (s : State),
    exec (.crcUpdate b) s =
      .next { s with crcReg := crcStep s.crcReg b, respPort := s.respPort ++ [0x00] } ∧
    crcStep 0x0000 0x00 = 0x0000 ∧ crcStep 0xFFFF 0xFF = 0xFF00 ∧ crcStep 0x8000 0x00 = 0x9188 ∧
    crcStep 0x0000 0x80 = 0x9188 ∧ crcStep 0x0000 0x01 = 0x1021

/-- R126. -/
def Obligations.CrcReadReturnsCrcReg : Prop :=
  ∀ s : State,
    exec .crcRead s =
      .next { s with
        respPort := s.respPort ++
          [0x00, BitVec.ofNat 8 (s.crcReg.toNat % 256), BitVec.ofNat 8 (s.crcReg.toNat / 256)] } ∧
    execAll [.crcInit, .crcUpdate 0x02, .crcUpdate 0x00, .crcUpdate 0xFE, .crcRead] s =
      .next { s with crcReg := 0x60B1, respPort := s.respPort ++ [0x00, 0x00, 0x00, 0x00, 0x00, 0xB1, 0x60] }

/-- R127. -/
def Obligations.CrcGenReturnsTheSequenceCrc : Prop :=
  ∀ (seq : List Byte) (s : State), seq.length ≤ 65535 →
    exec (.crcGen seq) s =
      .next { s with respPort := s.respPort ++ [0x00, crcLo (crc16 seq), crcHi (crc16 seq)] } ∧
    exec (.crcGen []) s = .next { s with respPort := s.respPort ++ [0x00, 0x00, 0x00] } ∧
    exec (.crcGen [0x02, 0x00, 0xFE]) s = .next { s with respPort := s.respPort ++ [0x00, 0xB1, 0x60] } ∧
    ∀ (dest src header : Byte) (data : List Byte), data.length ≤ 255 →
      exec (.crcGen ([dest, BitVec.ofNat 8 data.length, header] ++ data)) s =
        .next { s with
          respPort := s.respPort ++ [0x00, (encodeCrc dest src header data).getD 2 0,
            (encodeCrc dest src header data).getD (data.length + 4) 0] }

/-- R128: the length byte is not checked, the additive test is not applied first. -/
def Obligations.CrcCheckReportsTheValidator : Prop :=
  ∀ (seq : List Byte) (s : State), seq.length ≤ 65535 →
    exec (.crcCheck seq) s =
      .next { s with respPort := s.respPort ++ [0x00, if crcValid seq = true then 0x01 else 0x00] } ∧
    (seq.length < 5 → exec (.crcCheck seq) s = .next { s with respPort := s.respPort ++ [0x00, 0x00] }) ∧
    (∀ len : Byte, ∃ lo hi : Byte,
      exec (.crcCheck [0x02, len, lo, 0xFE, hi]) s = .next { s with respPort := s.respPort ++ [0x00, 0x01] }) ∧
    exec (.crcCheck [0x02, 0x01, 0xF1, 0x01, 0x91, 0x7A]) s =
      .next { s with respPort := s.respPort ++ [0x00, 0x01] } ∧
    (∃ m, decodeFrame [0x02, 0x01, 0xF1, 0x01, 0x91, 0x7A] = .ok m 6 ∧ m.checksumType = .additive) ∧
    exec (.crcCheck [0x02, 0x00, 0xB1, 0xFE, 0x60]) s = .next { s with respPort := s.respPort ++ [0x00, 0x01] } ∧
    exec (.crcCheck [0x02, 0x00, 0xB1, 0xFE, 0x61]) s = .next { s with respPort := s.respPort ++ [0x00, 0x00] }

/-- R129: for a fixed rest of the frame, exactly the (LO, HI) pair of the CRC validates. -/
def Obligations.ExactlyOneCrcPairValidates : Prop :=
  ∀ (dest header lo hi : Byte) (data : List Byte), data.length ≤ 255 →
    (crcValid ([dest, BitVec.ofNat 8 data.length, lo, header] ++ data ++ [hi]) = true ↔
      lo = crcLo (crc16 ([dest, BitVec.ofNat 8 data.length, header] ++ data)) ∧
      hi = crcHi (crc16 ([dest, BitVec.ofNat 8 data.length, header] ++ data)))

/-- Derived from R120 and R121: two sequences that differ in one byte never have the same CRC. -/
def Obligations.CrcDetectsAnyOneChangedByte : Prop :=
  ∀ (front back : List Byte) (x y : Byte),
    crc16 (front ++ [x] ++ back) = crc16 (front ++ [y] ++ back) → x = y

/-! ### Frame codec (spec 30 part 1, 42) -/

/-- R60, R62, R140: the additive frame, position by position; `len + 5` is not wrapped. -/
def Obligations.AdditiveFrameLayout : Prop :=
  ∀ (dest src header : Byte) (data : List Byte), data.length ≤ 255 →
    (encodeAdd dest src header data).length = data.length + 5 ∧
    frameLength ((encodeAdd dest src header data).getD 1 0) = data.length + 5 ∧
    (∀ len : Byte, frameLength len = len.toNat + 5 ∧ 5 ≤ frameLength len ∧ frameLength len ≤ 260) ∧
    (encodeAdd dest src header data).getD 0 0 = dest ∧
    ((encodeAdd dest src header data).getD 1 0).toNat = data.length ∧
    (encodeAdd dest src header data).getD 2 0 = src ∧
    (encodeAdd dest src header data).getD 3 0 = header ∧
    ((encodeAdd dest src header data).drop 4).take data.length = data ∧
    (encodeAdd dest src header data).getD (data.length + 4) 0 =
      checksum ((encodeAdd dest src header data).take (data.length + 4)) ∧
    sum8 (encodeAdd dest src header data) = 0

/-- R122, R141: the byte split; the CRC16 frame, position by position, with LO at index 2 and HI last; the source neither
appears nor matters; the pair is returned low byte first in responses too. -/
def Obligations.CrcFrameLayout : Prop :=
  ∀ (c : Word) (dest src other header : Byte) (data : List Byte) (s : State), data.length ≤ 255 →
    (crcLo c).toNat = c.toNat % 256 ∧ (crcHi c).toNat = c.toNat / 256 ∧
    (encodeCrc dest src header data).length = data.length + 5 ∧
    encodeCrc dest src header data = encodeCrc dest other header data ∧
    (encodeCrc dest src header data).getD 0 0 = dest ∧
    ((encodeCrc dest src header data).getD 1 0).toNat = data.length ∧
    (encodeCrc dest src header data).getD 2 0 =
      crcLo (crc16 ([dest, BitVec.ofNat 8 data.length, header] ++ data)) ∧
    (encodeCrc dest src header data).getD 3 0 = header ∧
    ((encodeCrc dest src header data).drop 4).take data.length = data ∧
    (encodeCrc dest src header data).getD (data.length + 4) 0 =
      crcHi (crc16 ([dest, BitVec.ofNat 8 data.length, header] ++ data)) ∧
    exec .crcRead s = .next { s with respPort := s.respPort ++ [0x00, crcLo s.crcReg, crcHi s.crcReg] } ∧
    exec (.crcGen data) s =
      .next { s with respPort := s.respPort ++ [0x00, crcLo (crc16 data), crcHi (crc16 data)] }

/-- R142; a command port carries no ENC.ADD with more than 255 data bytes. -/
def Obligations.EncAddReturnsTheAdditiveFrame : Prop :=
  (∀ (bytes rest : List Byte) (dest src header : Byte) (data : List Byte),
    decode bytes = .command (.encAdd dest src header data) rest → data.length ≤ 255) ∧
  ∀ (dest src header : Byte) (data : List Byte) (s : State), data.length ≤ 255 →
    exec (.encAdd dest src header data) s =
      .next { s with respPort := s.respPort ++ 0x00 :: encodeAdd dest src header data } ∧
    (data = [] → (encodeAdd dest src header data).length = 5) ∧
    (data.length = 255 → (encodeAdd dest src header data).length = 260) ∧
    ((((encodeAdd dest src header data).take (data.length + 4)).map BitVec.toNat).sum % 256 = 0 →
      (encodeAdd dest src header data).getLast? = some 0x00) ∧
    encodeAdd 0x02 0x01 0xFD [] = [0x02, 0x00, 0x01, 0xFD, 0x00] ∧
    exec (.encAdd 0x02 0x01 0xFE []) s =
      .next { s with respPort := s.respPort ++ [0x00, 0x02, 0x00, 0x01, 0xFE, 0xFF] }

/-- R143. -/
def Obligations.EncCrcReturnsTheCrcFrame : Prop :=
  ∀ (dest src other header : Byte) (data : List Byte) (s : State), data.length ≤ 255 →
    exec (.encCrc dest src header data) s =
      .next { s with respPort := s.respPort ++ 0x00 :: encodeCrc dest src header data } ∧
    exec (.encCrc dest src header data) s = exec (.encCrc dest other header data) s ∧
    (data = [] → (encodeCrc dest src header data).length = 5) ∧
    (data.length = 255 → (encodeCrc dest src header data).length = 260) ∧
    encodeCrc 0x00 src 0x00 [] = [0x00, 0x00, 0x00, 0x00, 0x00] ∧
    (∃ m, decodeFrame (encodeCrc 0x00 src 0x00 []) = .ok m 5 ∧ m.checksumType = .additive) ∧
    exec (.encCrc 0x02 0x09 0xFE []) s =
      .next { s with respPort := s.respPort ++ [0x00, 0x02, 0x00, 0xB1, 0xFE, 0x60] }

/-- The model's choice (log 4), after R142's "cannot be written" and I14's "refuse": a term whose operand is longer than
its count can say is refused by name, and those terms are exactly the ones `exec` refuses. -/
def Obligations.OnlyOverlongOperandsAreRefused : Prop :=
  ∀ (i : Instr) (s : State),
    (i.wellFormed = false →
      exec i s = .refused .sequenceTooLong ∨ exec i s = .refused .dataTooLong) ∧
    (i.wellFormed = true → ∃ t, exec i s = .next t)

/-- R145. -/
def Obligations.DecodePartialCondition : Prop :=
  ∀ buf : List Byte,
    (decodeFrame buf = .partialMessage ↔ buf.length < 2 ∨ buf.length < (buf.getD 1 0).toNat + 5)

/-- R146: a decode that is not partial consumes the `buf[1] + 5` bytes at the head, valid or not, and reads nothing
after them. -/
def Obligations.DecodeConsumesExactlyOneFrame : Prop :=
  ∀ (buf rest : List Byte), decodeFrame buf ≠ .partialMessage →
    ((∃ m, decodeFrame buf = .ok m ((buf.getD 1 0).toNat + 5)) ∨
      decodeFrame buf = .checksumError ((buf.getD 1 0).toNat + 5)) ∧
    (buf.getD 1 0).toNat + 5 ≤ buf.length ∧
    decodeFrame (buf.take ((buf.getD 1 0).toNat + 5) ++ rest) = decodeFrame buf

/-- R65, R144, R147, R148, R149, R203: the checks of one DECODE in their order, with every field of each outcome. -/
def Obligations.DecodeChecksInOrder : Prop :=
  ∀ (buf f : List Byte) (n : Nat), n = (buf.getD 1 0).toNat + 5 → f = buf.take n →
    (buf.length < 2 → decodeFrame buf = .partialMessage) ∧
    (2 ≤ buf.length → buf.length < n → decodeFrame buf = .partialMessage) ∧
    (2 ≤ buf.length → n ≤ buf.length → (f.map BitVec.toNat).sum % 256 = 0 →
      decodeFrame buf =
        .ok { destination := f.getD 0 0, length := f.getD 1 0, source := f.getD 2 0, header := f.getD 3 0,
              data := (f.drop 4).take (f.getD 1 0).toNat, checksumType := .additive } n) ∧
    (2 ≤ buf.length → n ≤ buf.length → (f.map BitVec.toNat).sum % 256 ≠ 0 → crcValid f = true →
      decodeFrame buf =
        .ok { destination := f.getD 0 0, length := f.getD 1 0, source := 0x01, header := f.getD 3 0,
              data := (f.drop 4).take (f.getD 1 0).toNat, checksumType := .crc16 } n) ∧
    (2 ≤ buf.length → n ≤ buf.length → (f.map BitVec.toNat).sum % 256 ≠ 0 → crcValid f = false →
      decodeFrame buf = .checksumError n)

/-- Derived from R10, R65, R148 and R241: a decoded message's length is its number of data bytes, and a CRC16 message's
source is always 1. -/
def Obligations.DecodedMessagesAreConsistent : Prop :=
  ∀ (buf : List Byte) (m : Message) (n : Nat), decodeFrame buf = .ok m n →
    m.length.toNat = m.data.length ∧ n = m.data.length + 5 ∧ n ≤ buf.length ∧
    (m.checksumType = .crc16 → m.source = 0x01) ∧ (m.checksumType = .additive → m.source = buf.getD 2 0)

/-- R151. -/
def Obligations.DecReportsTheDecodeOutcome : Prop :=
  ∀ (seq : List Byte) (s : State), seq.length ≤ 65535 →
    exec (.dec seq) s =
      .next { s with
        respPort := s.respPort ++
          match decodeFrame seq with
          | .partialMessage => [0x01, 0x00, 0x00]
          | .checksumError n => [0x02, BitVec.ofNat 8 (n % 256), BitVec.ofNat 8 (n / 256)]
          | .ok m n =>
            [0x00, BitVec.ofNat 8 (n % 256), BitVec.ofNat 8 (n / 256),
              m.destination, m.length, m.source, m.header,
              if m.checksumType = .additive then 0x00 else 0x01] ++ m.data } ∧
    decodeFrame [] = .partialMessage ∧ (∀ b : Byte, decodeFrame [b] = .partialMessage) ∧
    decodeFrame [0x02, 0x01, 0x01, 0xFE] = .partialMessage ∧
    (seq.getD 1 0 = 0xFF → seq.length = 259 → decodeFrame seq = .partialMessage) ∧
    (seq.getD 1 0 = 0xFF → seq.length = 260 → decodeFrame seq ≠ .partialMessage) ∧
    (∀ rest : List Byte, decodeFrame seq ≠ .partialMessage → decodeFrame (seq ++ rest) = decodeFrame seq) ∧
    exec (.dec [0x02, 0x00, 0xB1, 0xFE, 0x60]) s =
      .next { s with respPort := s.respPort ++ [0x00, 0x05, 0x00, 0x02, 0x00, 0x01, 0xFE, 0x01] }

/-- R152. -/
def Obligations.AdditiveFramesRoundTrip : Prop :=
  ∀ (dest src header : Byte) (data rest : List Byte), data.length ≤ 255 →
    decodeFrame (encodeAdd dest src header data ++ rest) =
      .ok { destination := dest, length := BitVec.ofNat 8 data.length, source := src, header := header,
            data := data, checksumType := .additive } (data.length + 5)

/-- R150, R153: a CRC16 frame whose bytes do not sum to 0 mod 256 round-trips with source 1; one whose bytes do is read
as additive, with the CRC low byte as its source; so is any candidate frame that passes the additive test. -/
def Obligations.CrcFramesRoundTripUnlessTheySumToZero : Prop :=
  (∀ (dest src header : Byte) (data rest : List Byte), data.length ≤ 255 →
    (sum8 (encodeCrc dest src header data) ≠ 0 →
      decodeFrame (encodeCrc dest src header data ++ rest) =
        .ok { destination := dest, length := BitVec.ofNat 8 data.length, source := 0x01, header := header,
              data := data, checksumType := .crc16 } (data.length + 5)) ∧
    (sum8 (encodeCrc dest src header data) = 0 →
      decodeFrame (encodeCrc dest src header data ++ rest) =
        .ok { destination := dest, length := BitVec.ofNat 8 data.length,
              source := crcLo (crc16 ([dest, BitVec.ofNat 8 data.length, header] ++ data)), header := header,
              data := data, checksumType := .additive } (data.length + 5))) ∧
  (∀ src : Byte,
    encodeCrc 0x02 src 0x01 [0x91] = [0x02, 0x01, 0xF1, 0x01, 0x91, 0x7A] ∧
    decodeFrame [0x02, 0x01, 0xF1, 0x01, 0x91, 0x7A] =
      .ok { destination := 0x02, length := 0x01, source := 0xF1, header := 0x01, data := [0x91],
            checksumType := .additive } 6 ∧
    encodeCrc 0x00 src 0x00 [] = [0x00, 0x00, 0x00, 0x00, 0x00] ∧
    decodeFrame [0x00, 0x00, 0x00, 0x00, 0x00] =
      .ok { destination := 0x00, length := 0x00, source := 0x00, header := 0x00, data := [],
            checksumType := .additive } 5) ∧
  (∀ f : List Byte, 2 ≤ f.length → f.length = frameLength (f.getD 1 0) → sumValid f = true →
    ∃ m, decodeFrame f = .ok m f.length ∧ m.source = f.getD 2 0 ∧ m.checksumType = .additive)

/-- R154: when a frame with a changed last byte fails, and how many changed last bytes of a CRC16 frame decode as
additive instead. -/
def Obligations.ChangedLastByteIsDetectedExceptOneValue : Prop :=
  (∀ (dest src header x : Byte) (data : List Byte), data.length ≤ 255 →
    (some x ≠ (encodeAdd dest src header data).getLast? →
      sumValid ((encodeAdd dest src header data).dropLast ++ [x]) = false ∧
      (crcValid ((encodeAdd dest src header data).dropLast ++ [x]) = false →
        decodeFrame ((encodeAdd dest src header data).dropLast ++ [x]) = .checksumError (data.length + 5))) ∧
    (some x ≠ (encodeCrc dest src header data).getLast? →
      crcValid ((encodeCrc dest src header data).dropLast ++ [x]) = false ∧
      (sum8 ((encodeCrc dest src header data).dropLast ++ [x]) ≠ 0 →
        decodeFrame ((encodeCrc dest src header data).dropLast ++ [x]) = .checksumError (data.length + 5)) ∧
      (sum8 ((encodeCrc dest src header data).dropLast ++ [x]) = 0 →
        ∃ m, decodeFrame ((encodeCrc dest src header data).dropLast ++ [x]) = .ok m (data.length + 5) ∧
          m.checksumType = .additive)) ∧
    (sum8 (encodeCrc dest src header data) ≠ 0 →
      ∃! y : Byte, some y ≠ (encodeCrc dest src header data).getLast? ∧
        sum8 ((encodeCrc dest src header data).dropLast ++ [y]) = 0) ∧
    (sum8 (encodeCrc dest src header data) = 0 →
      ∀ y : Byte, some y ≠ (encodeCrc dest src header data).getLast? →
        sum8 ((encodeCrc dest src header data).dropLast ++ [y]) ≠ 0)) ∧
  (∀ f : List Byte, 2 ≤ f.length → f.length = (f.getD 1 0).toNat + 5 →
    (decodeFrame f = .checksumError f.length ↔ sumValid f = false ∧ crcValid f = false)) ∧
  decodeFrame [0x02, 0x00, 0x01, 0xFE, 0x00] = .checksumError 5 ∧
  decodeFrame [0x02, 0x00, 0xB1, 0xFE, 0x61] = .checksumError 5

/-! ### Reassembler (spec 43) -/

/-- R171, R173: RA_FEED as an equation without a bound on the loop: append, then decode from the head; a partial buffer
is kept, a message passes only by its destination, an error clears the buffer. -/
def Obligations.FeedDecodesFromTheHead : Prop :=
  ∀ (own : Byte) (rxbuf chunk : List Byte),
    raFeed own rxbuf chunk =
      match decodeFrame (rxbuf ++ chunk) with
      | .partialMessage => { rxbuf := rxbuf ++ chunk, messages := [], error := false }
      | .checksumError _ => { rxbuf := [], messages := [], error := true }
      | .ok m n =>
        { rxbuf := (raFeed own [] ((rxbuf ++ chunk).drop n)).rxbuf
          messages := (if m.destination = own then [m] else []) ++ (raFeed own [] ((rxbuf ++ chunk).drop n)).messages
          error := (raFeed own [] ((rxbuf ++ chunk).drop n)).error }

/-- Derived from R172: `floor((r + c) / 5)` passes are always enough for the decode loop, so a larger bound on its
passes changes nothing; and no FEED accepts more messages than that. -/
def Obligations.FeedLoopEnds : Prop :=
  ∀ (own : Byte) (rxbuf chunk : List Byte) (passes : Nat),
    (rxbuf.length + chunk.length) / 5 ≤ passes →
    feedLoop own passes (rxbuf ++ chunk) = raFeed own rxbuf chunk ∧
    5 * (raFeed own rxbuf chunk).messages.length ≤ rxbuf.length + chunk.length

/-- R174, R175, R176, R206: a ChecksumError in RA.FEED, whatever the failed frame's destination: RXBUF is emptied, the
rest of the chunk with it; the messages accepted before it are reported; the registers are unchanged. -/
def Obligations.FeedChecksumErrorClearsTheBuffer : Prop :=
  ∀ (good bad tail : List Byte) (messages : List Message) (s : State),
    (good ++ bad ++ tail).length ≤ 65535 →
    raFeed s.ownAddr s.rxbuf good = { rxbuf := [], messages := messages, error := false } →
    decodeFrame bad = .checksumError bad.length →
    exec (.raFeed (good ++ bad ++ tail)) s =
      .next { s with
        rxbuf := []
        respPort := s.respPort ++
          ([0x02, BitVec.ofNat 8 (messages.length % 256), BitVec.ofNat 8 (messages.length / 256)] ++
            messages.flatMap messageRecord) } ∧
    exec (.raFeed [0x03, 0x00, 0x01, 0xFE, 0x00]) { s with ownAddr := 0x02, rxbuf := [] } =
      .next { s with ownAddr := 0x02, rxbuf := [], respPort := s.respPort ++ [0x02, 0x00, 0x00] }

/-- R177: from a buffer without a whole frame, the byte-serial process gives the messages, the error and the buffer of
R171, and holds at most 260 bytes at any time. -/
def Obligations.StreamingRealisationIsFeed : Prop :=
  ∀ (own : Byte) (rxbuf chunk : List Byte), holdsNoWholeFrame rxbuf →
    streamFeed own rxbuf chunk = raFeed own rxbuf chunk ∧
    ∀ (front : List Byte) (x : Byte) (back : List Byte), chunk = front ++ x :: back →
      ((streamFeed own rxbuf front).rxbuf ++ [x]).length ≤ 260

/-- R178: without an error the split into chunks does not matter; with one it does. -/
def Obligations.ChunkBoundariesMatterOnlyAfterAnError : Prop :=
  (∀ (own : Byte) (rxbuf : List Byte) (chunks : List (List Byte)), holdsNoWholeFrame rxbuf →
    (feedChunks own rxbuf chunks).error = false →
    feedChunks own rxbuf chunks = raFeed own rxbuf chunks.flatten ∧
    ∀ others : List (List Byte), others.flatten = chunks.flatten →
      (feedChunks own rxbuf others).messages = (feedChunks own rxbuf chunks).messages ∧
      (feedChunks own rxbuf others).rxbuf = (feedChunks own rxbuf chunks).rxbuf) ∧
  (∀ (own : Byte) (bad good : List Byte) (m : Message),
    decodeFrame bad = .checksumError bad.length → decodeFrame good = .ok m good.length → m.destination = own →
    (raFeed own [] (bad ++ good)).messages = [] ∧ (feedChunks own [] [bad, good]).messages = [m])

/-- R179. -/
def Obligations.RaFeedReportsMessagesAndError : Prop :=
  (∀ (chunk : List Byte) (s : State), chunk.length ≤ 65535 →
    exec (.raFeed chunk) s =
      .next { s with
        rxbuf := (raFeed s.ownAddr s.rxbuf chunk).rxbuf
        respPort := s.respPort ++
          ([if (raFeed s.ownAddr s.rxbuf chunk).error then 0x02 else 0x00,
              BitVec.ofNat 8 ((raFeed s.ownAddr s.rxbuf chunk).messages.length % 256),
              BitVec.ofNat 8 ((raFeed s.ownAddr s.rxbuf chunk).messages.length / 256)] ++
            (raFeed s.ownAddr s.rxbuf chunk).messages.flatMap fun m =>
              [m.destination, m.length, m.source, m.header,
                if m.checksumType = .additive then 0x00 else 0x01] ++ m.data) } ∧
    (holdsNoWholeFrame s.rxbuf →
      exec (.raFeed []) s = .next { s with respPort := s.respPort ++ [0x00, 0x00, 0x00] }) ∧
    exec (.raFeed [0x02, 0x02, 0x01, 0xFE, 0x10, 0x20, 0xCD]) { s with ownAddr := 0x02, rxbuf := [] } =
      .next { s with
        ownAddr := 0x02, rxbuf := [],
        respPort := s.respPort ++ [0x00, 0x01, 0x00, 0x02, 0x02, 0x01, 0xFE, 0x00, 0x10, 0x20] }) ∧
  (∀ own : Byte, ∃ chunk : List Byte, chunk.length = 65535 ∧ (raFeed own [] chunk).messages.length = 13107)

/-- R180. -/
def Obligations.RaSetaddrWritesOwnAddr : Prop :=
  ∀ (a : Byte) (s : State),
    exec (.raSetaddr a) s = .next { s with ownAddr := a, respPort := s.respPort ++ [0x00] } ∧
    exec (.raSetaddr 0x01) s = .next { s with ownAddr := 0x01, respPort := s.respPort ++ [0x00] } ∧
    (∀ chunk : List Byte, chunk.length ≤ 65535 →
      execAll [.raSetaddr a, .raFeed chunk] s =
        exec (.raFeed chunk) { s with ownAddr := a, respPort := s.respPort ++ [0x00] })

/-- R181; after reset the value is the parameter OWN_ADDR_RESET. -/
def Obligations.RaGetaddrReturnsOwnAddr : Prop :=
  ∀ s : State,
    exec .raGetaddr s = .next { s with respPort := s.respPort ++ [0x00, s.ownAddr] } ∧
    exec .raGetaddr s.afterReset =
      .next { s.afterReset with respPort := s.respPort ++ [0x00, Config.ownAddrReset] }

/-- R182: the level, which between commands (R27's condition) is at most 259. -/
def Obligations.RaLevelReturnsTheBufferLength : Prop :=
  ∀ s : State,
    exec .raLevel s =
      .next { s with
        respPort := s.respPort ++
          [0x00, BitVec.ofNat 8 (s.rxbuf.length % 256), BitVec.ofNat 8 (s.rxbuf.length / 256)] } ∧
    (holdsNoWholeFrame s.rxbuf → s.level.toNat = s.rxbuf.length ∧ s.rxbuf.length ≤ 259) ∧
    execAll [.raFeed [0x02, 0x02, 0x01], .raLevel] { s with rxbuf := [] } =
      .next { s with
        rxbuf := [0x02, 0x02, 0x01], respPort := s.respPort ++ [0x00, 0x00, 0x00, 0x00, 0x03, 0x00] }

/-- R184. -/
def Obligations.RaFlushDiscardsTheBuffer : Prop :=
  ∀ s : State,
    exec .raFlush s =
      .next { s with
        rxbuf := []
        respPort := s.respPort ++
          [0x00, BitVec.ofNat 8 (s.rxbuf.length % 256), BitVec.ofNat 8 (s.rxbuf.length / 256)] } ∧
    exec .raFlush { s with rxbuf := [] } =
      .next { s with rxbuf := [], respPort := s.respPort ++ [0x00, 0x00, 0x00] } ∧
    exec .raFlush { s with rxbuf := [0x02] } =
      .next { s with rxbuf := [], respPort := s.respPort ++ [0x00, 0x01, 0x00] }

/-- R185: a frame begun in one FEED and completed in another is filtered against the OWN_ADDR of the completing one. -/
def Obligations.FilterUsesTheAddressOfTheCompletingFeed : Prop :=
  ∀ (first second : List Byte) (a : Byte) (m : Message) (s : State),
    first.length ≤ 65535 → second.length ≤ 65535 →
    holdsNoWholeFrame (s.rxbuf ++ first) →
    decodeFrame (s.rxbuf ++ first ++ second) = .ok m (s.rxbuf ++ first ++ second).length →
    execAll [.raFeed first, .raSetaddr a, .raFeed second] s =
      .next { s with
        ownAddr := a, rxbuf := []
        respPort := s.respPort ++ ([0x00, 0x00, 0x00] ++ [0x00] ++
          if m.destination = a then [0x00, 0x01, 0x00] ++ messageRecord m else [0x00, 0x00, 0x00]) }

/-! ### The command port, errors, reset, and the whole machine (spec 10, 20, 30 part 2, 60, 70) -/

/-- A step runs the decoded command: it takes the command's bytes off the port and is `exec` of it. That a step is one
transaction (log 3) and that a reset behind a whole command stays on the port behind it (log 12) are the model's
inferences. -/
def Obligations.StepRunsTheDecodedCommand : Prop :=
  ∀ (s : State) (i : Instr) (rest : List Byte),
    decode (s.partialCmd ++ portBytes s.cmdPort) = .command i rest →
    step s = exec i { s with partialCmd := [], cmdPort := rest.map .byte ++ portFromReset s.cmdPort }

/-- R73: an opcode byte of the listed ranges is consumed alone, answered with 0xFF and changes nothing else; no other
byte is illegal. -/
def Obligations.IllegalOpcodesAnswerFF : Prop :=
  ∀ (s : State) (op : Byte) (rest : List Byte), s.partialCmd ++ portBytes s.cmdPort = op :: rest →
    (op.toNat ≤ 0x0F ∨ (0x15 ≤ op.toNat ∧ op.toNat ≤ 0x1F) ∨ (0x25 ≤ op.toNat ∧ op.toNat ≤ 0x2F) ∨
        (0x32 ≤ op.toNat ∧ op.toNat ≤ 0x37) ∨ (0x39 ≤ op.toNat ∧ op.toNat ≤ 0x3F) ∨ 0x45 ≤ op.toNat →
      step s =
        .next { s with
          partialCmd := [], cmdPort := rest.map .byte ++ portFromReset s.cmdPort,
          respPort := s.respPort ++ [0xFF] }) ∧
    (¬(op.toNat ≤ 0x0F ∨ (0x15 ≤ op.toNat ∧ op.toNat ≤ 0x1F) ∨ (0x25 ≤ op.toNat ∧ op.toNat ≤ 0x2F) ∨
        (0x32 ≤ op.toNat ∧ op.toNat ≤ 0x37) ∨ (0x39 ≤ op.toNat ∧ op.toNat ≤ 0x3F) ∨ 0x45 ≤ op.toNat) →
      ∀ op' rest', decode (op :: rest) ≠ .illegal op' rest')

/-- Derived from R77: an incomplete command is not started: the block holds its bytes and waits, with nothing changed,
until more arrive; a reset discards them. That waiting, which R77 and I10 call stuck, is a next state with the bytes held
is log 3, and that the reset is reached in arrival order is log 12: the model's inferences. -/
def Obligations.IncompleteCommandWaits : Prop :=
  (∀ (i : Instr) (k : Nat), i.wellFormed = true → k < (encode i).length →
    decode ((encode i).take k) = .incomplete) ∧
  (∀ s : State, decode (s.partialCmd ++ portBytes s.cmdPort) = .incomplete →
    (portFromReset s.cmdPort = [] →
      step s = .next { s with partialCmd := s.partialCmd ++ portBytes s.cmdPort, cmdPort := [] } ∧
      ∀ later : List Byte,
        step { s with
          partialCmd := s.partialCmd ++ portBytes s.cmdPort, cmdPort := later.map PortEvent.byte } =
        step { s with cmdPort := s.cmdPort ++ later.map PortEvent.byte }) ∧
    (∀ later, portFromReset s.cmdPort = .reset :: later →
      ∃ t, step s = .next t ∧ t.partialCmd = [] ∧ t.respPort = s.respPort ∧ t.cmdPort = later))

/-- Derived from R230, R231 and log 12: what a reset sets, when it is taken (between commands, and before an incomplete one), and that delivered
responses stay delivered; power-on is the same for the block's own state. That a whole command before a reset on the port
runs first is log 12, the model's inference. -/
def Obligations.ResetSetsTheSpecifiedState : Prop :=
  (∀ (s : State) (later : List PortEvent), decode (s.partialCmd ++ portBytes s.cmdPort) = .incomplete →
    portFromReset s.cmdPort = .reset :: later →
    step s =
      .next
        { crcReg := 0x0000, sumReg := 0x00, ownAddr := Config.ownAddrReset, rxbuf := [], partialCmd := [],
          cmdPort := later, respPort := s.respPort }) ∧
  (∀ (s : State) (i : Instr) (rest : List Byte) (later : List PortEvent),
    decode (s.partialCmd ++ portBytes s.cmdPort) = .command i rest → portFromReset s.cmdPort = .reset :: later →
    step s = exec i { s with partialCmd := [], cmdPort := rest.map .byte ++ .reset :: later }) ∧
  (State.reset.crcReg = 0x0000 ∧ State.reset.sumReg = 0x00 ∧ State.reset.ownAddr = Config.ownAddrReset ∧
    State.reset.rxbuf = [] ∧ State.reset.partialCmd = [])

/-- Derived from R27: reset leaves no whole frame in RXBUF, every step keeps it so, and then it holds at most 259 bytes. -/
def Obligations.NoWholeFrameBetweenCommands : Prop :=
  holdsNoWholeFrame State.reset.rxbuf ∧
  ∀ s : State, holdsNoWholeFrame s.rxbuf →
    s.rxbuf.length ≤ 259 ∧ ∀ t, step s = .next t → holdsNoWholeFrame t.rxbuf

/-- Derived from R77 and log 3: the invariant of the block, RXBUF and command latch together, holds at reset. -/
def Obligations.ResetMeetsTheInvariant : Prop :=
  State.reset.Inv ∧ ∀ s : State, s.afterReset.Inv

/-- Derived from R27 and R77: every step keeps the invariant; the latch never holds a whole command after any step. -/
def Obligations.EveryStepKeepsTheInvariant : Prop :=
  ∀ s t : State, step s = .next t → decode t.partialCmd = .incomplete ∧ (s.Inv → t.Inv)

/-- Derived from R77, R200 and R213: no step of the block stops; every condition is answered or waited out. It is true by
log 3 (waiting is a next state) and log 5 (no fault exists), the model's inferences. -/
def Obligations.EveryStepAnswersANextState : Prop :=
  ∀ s : State, ∃ t, step s = .next t

/-- Derived from R47: the eleven commands outside its list change nothing but the response port, and doing one again
gives the same response. -/
def Obligations.ReadOnlyCommandsAreIdempotent : Prop :=
  ∀ (i : Instr) (s t : State), mayChangeState i = false → exec i s = .next t →
    ∃ response : List Byte, t = { s with respPort := s.respPort ++ response } ∧
      exec i t = .next { t with respPort := t.respPort ++ response }

/-- Derived from R20, R23, R24, R25 and R45, the frame over all commands: which commands write which state; RXBUF only
loses bytes at its head, gains the chunk at its tail, or is emptied. -/
def Obligations.WhichCommandsWriteWhichState : Prop :=
  ∀ (i : Instr) (s t : State), exec i s = .next t →
    (t.crcReg ≠ s.crcReg → i = .crcInit ∨ ∃ b, i = .crcUpdate b) ∧
    (t.sumReg ≠ s.sumReg → i = .sumInit ∨ ∃ b, i = .sumAdd b) ∧
    (t.ownAddr ≠ s.ownAddr → ∃ a, i = .raSetaddr a) ∧
    (t.rxbuf ≠ s.rxbuf → (∃ chunk, i = .raFeed chunk ∧ t.rxbuf <:+ s.rxbuf ++ chunk) ∨ (i = .raFlush ∧ t.rxbuf = [])) ∧
    t.partialCmd = s.partialCmd ∧ t.cmdPort = s.cmdPort ∧ s.respPort <+: t.respPort

/-- R75: each status code exactly on its outcome: in every command's response, 01 iff it is DEC on a partial sequence, 02
iff it is DEC or RA.FEED on a checksum error, 00 in every other, never FF; on the port, FF iff the bytes decode to an
illegal opcode, and an incomplete command produces no status. -/
def Obligations.StatusCodesAndTheirProducers : Prop :=
  (∀ (i : Instr) (s t : State), exec i s = .next t →
    ∃ (status : Byte) (fields : List Byte), t.respPort = s.respPort ++ status :: fields ∧
      (status = 0x01 ↔ ∃ seq, i = .dec seq ∧ decodeFrame seq = .partialMessage) ∧
      (status = 0x02 ↔
        (∃ seq n, i = .dec seq ∧ decodeFrame seq = .checksumError n) ∨
          ∃ chunk, i = .raFeed chunk ∧ (raFeed s.ownAddr s.rxbuf chunk).error = true) ∧
      (status = 0x00 ↔
        ¬(∃ seq, i = .dec seq ∧ (decodeFrame seq = .partialMessage ∨ ∃ n, decodeFrame seq = .checksumError n)) ∧
          ¬∃ chunk, i = .raFeed chunk ∧ (raFeed s.ownAddr s.rxbuf chunk).error = true) ∧
      (status = 0x00 ∨ status = 0x01 ∨ status = 0x02)) ∧
  (∀ s t : State, step s = .next t →
    ((∃ fields, t.respPort = s.respPort ++ 0xFF :: fields) ↔
      ∃ op rest, decode (s.partialCmd ++ portBytes s.cmdPort) = .illegal op rest) ∧
    (∀ op rest, decode (s.partialCmd ++ portBytes s.cmdPort) = .illegal op rest →
      t.respPort = s.respPort ++ [0xFF]) ∧
    (∀ i rest, decode (s.partialCmd ++ portBytes s.cmdPort) = .command i rest →
      ∃ (status : Byte) (fields : List Byte), t.respPort = s.respPort ++ status :: fields ∧
        (status = 0x00 ∨ status = 0x01 ∨ status = 0x02)) ∧
    (decode (s.partialCmd ++ portBytes s.cmdPort) = .incomplete → t.respPort = s.respPort))

/-- R74: each command gives one response, whose length a reader finds from the command it answers and from the counts
in it, whatever follows; ILLEGAL_COMMAND is one byte. -/
def Obligations.ResponsesAreSelfDelimiting : Prop :=
  (∀ (i : Instr) (s t : State), holdsNoWholeFrame s.rxbuf → exec i s = .next t →
    ∃ response : List Byte, t.respPort = s.respPort ++ response ∧ response ≠ [] ∧
      ∀ more : List Byte, responseLength i (response ++ more) = response.length) ∧
  (∀ (s : State) (op : Byte) (rest : List Byte), decode (s.partialCmd ++ portBytes s.cmdPort) = .illegal op rest →
    ∃ t, step s = .next t ∧ t.respPort = s.respPort ++ [0xFF])

/-- Derived from R48 and R70: a stream of commands on the port is run one command a step (log 3, the model's inference),
in order, each on the state the earlier ones left; what follows the stream on the port does not matter. -/
def Obligations.CommandsRunInArrivalOrder : Prop :=
  ∀ (is : List Instr) (events : List PortEvent) (s : State), (∀ i ∈ is, i.wellFormed = true) →
    s.partialCmd = [] → s.cmdPort = (encodeAll is).map .byte ++ events →
    Host.Core.run Sys2Proof.core is.length s = execAll is { s with cmdPort := events }

/-- Every command that can be written decodes back to itself, with every operand, whatever follows it. -/
def Obligations.DecodeOfEncodeIsTheCommand : Prop :=
  ∀ (i : Instr) (rest : List Byte), i.wellFormed = true → decode (encode i ++ rest) = .command i rest

/-- The other direction: what decodes to a command is exactly that command's bytes, and can be written. -/
def Obligations.DecodedBytesAreTheEncoding : Prop :=
  ∀ (bytes rest : List Byte) (i : Instr), decode bytes = .command i rest →
    i.wellFormed = true ∧ bytes = encode i ++ rest

/-- R71: the length of a command by its operand kind. -/
def Obligations.CommandLengthByOperandKind : Prop :=
  (∀ (bytes rest : List Byte) (i : Instr), decode bytes = .command i rest →
    bytes.length = commandLength bytes + rest.length) ∧
  (∀ (op b0 b1 b2 len : Byte) (rest : List Byte),
    (operandKind op = some .none → commandLength (op :: rest) = 1) ∧
    (operandKind op = some .imm8 → commandLength (op :: rest) = 2) ∧
    (operandKind op = some .seq16 → commandLength (op :: b0 :: b1 :: rest) = 3 + (b0.toNat + 256 * b1.toNat)) ∧
    (operandKind op = some .msg → commandLength (op :: b0 :: b1 :: b2 :: len :: rest) = 5 + len.toNat))

/-- Sanity: words written out from the opcode table, one of each operand kind and unit. -/
def Obligations.EncodedWordsDecodeToTheirCommands : Prop :=
  decode [0b00010000] = .command .sumInit [] ∧
  decode [0b00010001, 0b11110101] = .command (.sumAdd 0xF5) [] ∧
  decode [0b00100011, 0b00000011, 0b00000000, 0x02, 0x00, 0xFE, 0x55] = .command (.crcGen [0x02, 0x00, 0xFE]) [0x55] ∧
  decode [0b00110001, 0x02, 0x09, 0xFE, 0b00000001, 0x10] = .command (.encCrc 0x02 0x09 0xFE [0x10]) [] ∧
  decode [0b00111000, 0b00000001, 0b00000000, 0x02] = .command (.dec [0x02]) [] ∧
  decode [0b01000010, 0b00000010, 0b00000000, 0x02, 0x03] = .command (.raFeed [0x02, 0x03]) [] ∧
  decode [0b01000100] = .command .raLevel []

/-- R79: the pseudo-instructions' expansions, and what CRC.SEQ and SUM.SEQ answer and leave. -/
def Obligations.PseudoInstructionsExpand : Prop :=
  ∀ (seq : List Byte) (b : Byte) (s : State),
    crcSeq seq = [.crcInit] ++ seq.map .crcUpdate ++ [.crcRead] ∧
    sumSeq seq = [.sumInit] ++ seq.map .sumAdd ++ [.sumRead] ∧
    raPush b = [.raFeed [b]] ∧ raReset = [.raFlush] ∧
    execAll (crcSeq seq) s =
      .next { s with
        crcReg := crc16 seq
        respPort := s.respPort ++ List.replicate (seq.length + 1) 0x00 ++
          [0x00, crcLo (crc16 seq), crcHi (crc16 seq)] } ∧
    (seq.length ≤ 65535 →
      exec (.crcGen seq) s = .next { s with respPort := s.respPort ++ [0x00, crcLo (crc16 seq), crcHi (crc16 seq)] }) ∧
    execAll (sumSeq seq) s =
      .next { s with
        sumReg := sum8 seq
        respPort := s.respPort ++ List.replicate (seq.length + 1) 0x00 ++ [0x00, sum8 seq, checksum seq] } ∧
    exec .raFlush s = .next { s with
      rxbuf := [], respPort := s.respPort ++ 0x00 :: word16 s.level.toNat }

/-- Derived from R78 and log 8 (the model's choice of digit case and white space): every command a line yields can be
written; each mnemonic and pseudo-instruction yields its commands with every operand within its limit, and refuses the
line with a number over 255, a sequence over 65535 bytes or data over 255 bytes; what follows a `;` does not matter. -/
def Obligations.AssembledLinesCanBeWritten : Prop :=
  (∀ (line : String) (is : List Instr), assembleLine line = some is → ∀ i ∈ is, i.wellFormed = true) ∧
  (∀ op ∈ ([("SUM.INIT", [.sumInit]), ("SUM.READ", [.sumRead]), ("CRC.INIT", [.crcInit]), ("CRC.READ", [.crcRead]),
        ("RA.GETADDR", [.raGetaddr]), ("RA.FLUSH", [.raFlush]), ("RA.LEVEL", [.raLevel]), ("RA.RESET", raReset)] :
        List (String × List Instr)),
    assembleLine op.1 = some op.2) ∧
  (∀ op ∈ ([("SUM.ADD", fun b => [.sumAdd b]), ("CRC.UPDATE", fun b => [.crcUpdate b]),
        ("RA.SETADDR", fun b => [.raSetaddr b]), ("RA.PUSH", raPush)] : List (String × (Byte → List Instr))),
    ∀ (n : Nat), ∀ text ∈ numeralTexts n,
      assembleLine (op.1 ++ " " ++ text) = if n ≤ 255 then some (op.2 (BitVec.ofNat 8 n)) else none) ∧
  (∀ (letter : Char → Char) (seq : List Byte), letter = id ∨ letter = Char.toUpper →
    (∀ op ∈ ([("SUM.GEN", fun q => [.sumGen q]), ("SUM.CHECK", fun q => [.sumCheck q]),
          ("CRC.GEN", fun q => [.crcGen q]), ("CRC.CHECK", fun q => [.crcCheck q]), ("DEC", fun q => [.dec q]),
          ("RA.FEED", fun q => [.raFeed q]), ("CRC.SEQ", crcSeq), ("SUM.SEQ", sumSeq)] :
          List (String × (List Byte → List Instr))),
      assembleLine (op.1 ++ " [" ++ hexList letter seq ++ "]") =
        if seq.length ≤ 65535 then some (op.2 seq) else none) ∧
    (∀ op ∈ ([("ENC.ADD", .encAdd), ("ENC.CRC", .encCrc)] :
          List (String × (Byte → Byte → Byte → List Byte → Instr))),
      ∀ (d s h : Nat), ∀ dest ∈ numeralTexts d, ∀ src ∈ numeralTexts s, ∀ header ∈ numeralTexts h,
        assembleLine (op.1 ++ " " ++ dest ++ ", " ++ src ++ ", " ++ header ++ ", [" ++ hexList letter seq ++ "]") =
          if d ≤ 255 ∧ s ≤ 255 ∧ h ≤ 255 ∧ seq.length ≤ 255 then
            some [op.2 (BitVec.ofNat 8 d) (BitVec.ofNat 8 s) (BitVec.ofNat 8 h) seq]
          else none)) ∧
  (∀ line comment : String, assembleLine (line ++ ";" ++ comment) = assembleLine line)
end

