-- ==== Sys2Proof/Laws/Assembler.lean ====
section
/-! SUPPORT. The assembler's tokens, numbers and byte lists: what each function makes of the texts R78 gives. -/

namespace Sys2Proof.Machine

/-- A character that a word may hold: none that ends a word or begins a comment. -/
abbrev isWordChar (c : Char) : Prop := c ≠ ';' ∧ c ≠ ' ' ∧ c ≠ '\t' ∧ c ≠ ',' ∧ c ≠ '[' ∧ c ≠ ']'

/-- Letters of a word join the word in hand. -/
theorem tokenize_word (w rest : List Char) (h : ∀ c ∈ w, isWordChar c) :
    ∀ letters, tokenize letters (w ++ rest) = tokenize (w.reverse ++ letters) rest := by
  induction w with
  | nil => exact fun _ => rfl
  | cons c w ih =>
    intro letters
    obtain ⟨h1, h2, h3, h4, h5, h6⟩ := h c (by simp)
    simp [tokenize, h1, h2, h3, h4, h5, h6, ih fun x hx => h x (by simp [hx])]

/-- A comment adds no token. -/
theorem tokenize_comment (line comment : List Char) :
    ∀ letters, tokenize letters (line ++ ';' :: comment) = tokenize letters line := by
  induction line with
  | nil => intro letters; simp [tokenize]
  | cons c cs ih => intro letters; simp only [List.cons_append, tokenize, ih]

theorem flushWord_of_ne_nil {w : List Char} (h : w ≠ []) : flushWord w.reverse = [.word (String.ofList w)] := by
  simp [flushWord, h]

/-- The numerals of a base: reading the digits of `n`, in either case, gives `n`. -/
theorem digits_toDigits {base : Nat} {letter : Char → Char} (hb : 1 < base)
    (hd : ∀ d < base, digit base (letter d.digitChar) = some d) (n : Nat) :
    digits base ((Nat.toDigits base n).map letter) = some n := by
  rw [digits, if_neg (by simp [Nat.toDigits_ne_nil])]
  induction n using Nat.strong_induction_on with
  | _ n ih =>
    by_cases h : n < base
    · simp [Nat.toDigits_of_lt_base h, hd n h]
    · rw [Nat.toDigits_of_base_le hb (by omega), List.map_append, List.foldlM_append,
        ih _ (Nat.div_lt_self (by omega) hb)]
      simp [hd _ (Nat.mod_lt n (by omega)), Nat.div_add_mod]

theorem digit_lower : ∀ d < 16, digit 16 d.digitChar = some d := by decide
theorem digit_upper : ∀ d < 16, digit 16 d.digitChar.toUpper = some d := by decide
theorem digit_decimal : ∀ d < 10, digit 10 d.digitChar = some d := by decide

/-- The digits of a numeral are letters of a word. -/
theorem isWordChar_toDigits {base : Nat} {letter : Char → Char} (hb : 1 < base)
    (hd : ∀ d < base, isWordChar (letter d.digitChar)) (n : Nat) :
    ∀ c ∈ (Nat.toDigits base n).map letter, isWordChar c := by
  induction n using Nat.strong_induction_on with
  | _ n ih =>
    by_cases h : n < base
    · simpa [Nat.toDigits_of_lt_base h] using hd n h
    · rw [Nat.toDigits_of_base_le hb (by omega), List.map_append]
      intro c hc
      rcases List.mem_append.mp hc with hc | hc
      · exact ih _ (Nat.div_lt_self (by omega) hb) c hc
      · simp only [List.map_cons, List.map_nil, List.mem_singleton] at hc
        exact hc ▸ hd _ (Nat.mod_lt n (by omega))

theorem isWordChar_decimal : ∀ d < 10, isWordChar d.digitChar := by decide
theorem isWordChar_lower : ∀ d < 16, isWordChar d.digitChar := by decide
theorem isWordChar_upper : ∀ d < 16, isWordChar d.digitChar.toUpper := by decide +kernel

/-- A numeral is one word. -/
theorem numeral_letters {n : Nat} {text : String} (h : text ∈ numeralTexts n) :
    text.toList ≠ [] ∧ ∀ c ∈ text.toList, isWordChar c := by
  simp only [numeralTexts, List.mem_cons, List.not_mem_nil, or_false] at h
  have hx : ∀ c ∈ ['0', 'x'], isWordChar c := by simp [isWordChar]
  rcases h with rfl | rfl | rfl
  · rw [show toString n = String.ofList (Nat.toDigits 10 n) from rfl, String.toList_ofList]
    have := isWordChar_toDigits (letter := id) (by decide) isWordChar_decimal n
    rw [List.map_id] at this
    exact ⟨Nat.toDigits_ne_nil, this⟩
  · have := isWordChar_toDigits (letter := id) (by decide) isWordChar_lower n
    rw [List.map_id] at this
    simp only [String.toList_append, String.toList_ofList]
    exact ⟨by simp, fun c hc => (List.mem_append.mp hc).elim (hx c) (this c)⟩
  · have := isWordChar_toDigits (letter := Char.toUpper) (by decide) isWordChar_upper n
    simp only [String.toList_append, String.toList_ofList]
    exact ⟨by simp, fun c hc => (List.mem_append.mp hc).elim (hx c) (this c)⟩

/-- A numeral before a comma is cut off there. -/
theorem tokenize_numeral_comma {n : Nat} {text : String} (h : text ∈ numeralTexts n) (rest : List Char) :
    tokenize [] (text.toList ++ ',' :: rest) = .word text :: .comma :: tokenize [] rest := by
  obtain ⟨h1, h2⟩ := numeral_letters h
  rw [tokenize_word _ _ h2]
  simp [tokenize, flushWord_of_ne_nil h1]

/-- A mnemonic and a space: the rest of the line gives the operands. -/
theorem assembleLine_operation (mnemonic : String) (hne : mnemonic.toList ≠ [])
    (hw : ∀ c ∈ mnemonic.toList, isWordChar c) (rest : List Char) (line : String)
    (hl : line.toList = mnemonic.toList ++ ' ' :: rest) :
    assembleLine line = assembleOperation mnemonic (tokenize [] rest) := by
  have : tokenize [] line.toList = .word mnemonic :: tokenize [] rest := by
    rw [hl, tokenize_word _ _ hw]
    simp [tokenize, flushWord_of_ne_nil hne]
  rw [assembleLine, this]

/-- A text that does not begin as hexadecimal is read as decimal. -/
theorem numberByte_decimal (w : String) (h : ∀ c ∈ w.toList, c ≠ 'x') :
    numberByte w = (digits 10 w.toList).bind fun n => if n < 256 then some (BitVec.ofNat 8 n) else none := by
  unfold numberByte
  split
  · next heq => exact absurd rfl (h 'x' (by simp [heq]))
  · rfl

/-- A number is read as its byte exactly when it is at most 255. -/
theorem numberByte_numeral {n : Nat} {text : String} (h : text ∈ numeralTexts n) :
    numberByte text = if n ≤ 255 then some (BitVec.ofNat 8 n) else none := by
  simp only [numeralTexts, List.mem_cons, List.not_mem_nil, or_false] at h
  rcases h with rfl | rfl | rfl
  · have hd := digits_toDigits (letter := id) (by decide) digit_decimal n
    rw [List.map_id] at hd
    rw [numberByte_decimal]
    · rw [show toString n = String.ofList (Nat.toDigits 10 n) from rfl, String.toList_ofList, hd]
      simp [Nat.lt_succ_iff]
    · intro c hc e
      subst e
      rw [show toString n = String.ofList (Nat.toDigits 10 n) from rfl, String.toList_ofList] at hc
      exact absurd (Nat.isDigit_of_mem_toDigits (by decide) (by decide) hc) (by decide)
  · have hd := digits_toDigits (letter := id) (by decide) digit_lower n
    rw [List.map_id] at hd
    simp [numberByte, hd, Nat.lt_succ_iff]
  · have hd := digits_toDigits (letter := Char.toUpper) (by decide) digit_upper n
    simp [numberByte, hd, Nat.lt_succ_iff]

/-- The two digits of a byte, in either case, are read as the byte. -/
theorem hexByte_digits {letter : Char → Char} (h : letter = id ∨ letter = Char.toUpper) (b : Byte) :
    hexByte (String.ofList [letter (Nat.digitChar (b.toNat / 16)), letter (Nat.digitChar (b.toNat % 16))]) = some b := by
  have := b.isLt
  have hd : ∀ d < 16, digit 16 (letter d.digitChar) = some d := by
    rcases h with rfl | rfl
    · exact digit_lower
    · exact digit_upper
  simp only [hexByte, String.toList_ofList]
  simp [digits, hd _ (show b.toNat / 16 < 16 by omega), hd _ (show b.toNat % 16 < 16 by omega), Nat.div_add_mod]

/-- The words of a byte list. -/
def byteWords (letter : Char → Char) (seq : List Byte) : List Token :=
  seq.map fun b => .word (String.ofList [letter (Nat.digitChar (b.toNat / 16)), letter (Nat.digitChar (b.toNat % 16))])

theorem bracketed_byteWords {letter : Char → Char} (h : letter = id ∨ letter = Char.toUpper) (seq : List Byte) :
    bracketed (byteWords letter seq ++ [.closeBracket]) = some seq := by
  induction seq with
  | nil => rfl
  | cons b bs ih =>
    rw [byteWords] at ih
    simp only [byteWords, List.map_cons, List.cons_append, bracketed, hexByte_digits h, ih, Option.bind_some,
      Option.map_some]

/-- A byte list in brackets is cut into its words and the closing bracket. -/
theorem tokenize_hexList {letter : Char → Char} (h : letter = id ∨ letter = Char.toUpper) (seq : List Byte) :
    tokenize [] ((hexList letter seq).toList ++ [']']) = byteWords letter seq ++ [.closeBracket] := by
  have hw : ∀ b : Byte, ∀ c ∈ [letter (Nat.digitChar (b.toNat / 16)), letter (Nat.digitChar (b.toNat % 16))],
      isWordChar c := by
    intro b c hc
    have := b.isLt
    have hl : ∀ d < 16, isWordChar (letter d.digitChar) := by
      rcases h with rfl | rfl
      · exact isWordChar_lower
      · exact isWordChar_upper
    rcases List.mem_pair.mp hc with rfl | rfl <;> exact hl _ (by omega)
  induction seq with
  | nil => rfl
  | cons b bs ih =>
    cases bs with
    | nil =>
      simp only [hexList, List.map_cons, List.map_nil, String.intercalate_singleton, String.toList_ofList]
      rw [tokenize_word _ _ (hw b)]
      rfl
    | cons b' bs =>
      rw [hexList] at ih
      simp only [hexList, List.map_cons, String.intercalate_cons_cons, String.toList_append, String.toList_ofList,
        List.append_assoc] at ih ⊢
      rw [tokenize_word _ _ (hw b), show (" " : String).toList = [' '] from rfl, List.singleton_append, tokenize,
        if_neg (by decide), if_pos (.inl rfl), ih, List.append_nil, flushWord_of_ne_nil (by simp)]
      rfl

end Sys2Proof.Machine
end

