-- ==== Sys2Proof/Laws/Crc.lean ====
section
/-! SUPPORT. The CRC unit's shared functions: the byte pair, one shift over numbers, and the covered bytes of a frame. -/

namespace Sys2Proof.Machine

theorem crcLo_toNat (c : Word) : (crcLo c).toNat = c.toNat % 256 := by simp [crcLo]

theorem crcHi_toNat (c : Word) : (crcHi c).toNat = c.toNat / 256 := by
  have := c.isLt
  simp only [crcHi, BitVec.extractLsb'_toNat, Nat.shiftRight_eq_div_pow]
  omega

/-- One iteration over numbers: double mod 2^16, XORing the polynomial in where bit 15 was set (R120). -/
theorem crcShift_toNat (r : Word) :
    (crcShift r).toNat =
      if 32768 ≤ r.toNat then Nat.xor (r.toNat * 2 % 65536) 0x1021 else r.toNat * 2 % 65536 := by
  have hb : r.getLsbD 15 = decide (32768 ≤ r.toNat) := by
    have := r.isLt
    rw [BitVec.getLsbD, Nat.testBit_eq_decide_div_mod_eq]
    simp only [decide_eq_decide]; omega
  have hs : (r <<< 1).toNat = r.toNat * 2 % 65536 := by simp [BitVec.toNat_shiftLeft, Nat.shiftLeft_eq]
  unfold crcShift
  rw [hb]
  by_cases h : 32768 ≤ r.toNat
  · simp only [h, decide_true, if_true, BitVec.toNat_xor, hs]; rfl
  · simp [h, hs]

/-- For at least 5 bytes, removing index 2 and the last byte leaves destination, length, header and the data (R123). -/
theorem withoutCrcBytes_eq (f : List Byte) (h : 5 ≤ f.length) :
    withoutCrcBytes f = [f.getD 0 0, f.getD 1 0, f.getD 3 0] ++ (f.drop 4).take (f.length - 5) := by
  match f, h with
  | a :: b :: c :: d :: g, h =>
    simp only [List.length_cons] at h
    simp [withoutCrcBytes, List.eraseIdx_eq_take_drop_succ]
    obtain ⟨k, hk⟩ : ∃ k, g.length = k + 1 := ⟨g.length - 1, by omega⟩
    rw [hk]; simp

end Sys2Proof.Machine
end

