-- ==== Sys2Proof/Laws/Decode.lean ====
section
/-! SUPPORT. The 16-bit fields and the three operand takers of the command decoder, each with what it answers on the
bytes the encoder writes. -/

namespace Sys2Proof

theorem seqFits_iff {seq : List Byte} : seqFits seq = true ↔ seq.length ≤ 65535 := decide_eq_true_iff

theorem dataFits_iff {data : List Byte} : dataFits data = true ↔ data.length ≤ 255 := decide_eq_true_iff

theorem lo16_toNat (n : Nat) : (lo16 n).toNat = n % 256 := by
  simp [lo16]

theorem hi16_toNat (n : Nat) (h : n ≤ 65535) : (hi16 n).toNat = n / 256 := by
  simp only [hi16, BitVec.toNat_ofNat]
  omega

/-- A 16-bit field read back is the number written (R43, R70). -/
theorem count16_lo16_hi16 (n : Nat) (h : n ≤ 65535) : count16 (lo16 n) (hi16 n) = n := by
  rw [count16, lo16_toNat, hi16_toNat n h]
  omega

theorem takeSeq16_seq16Bytes (mk : List Byte → Instr) (seq rest : List Byte) (h : seq.length ≤ 65535) :
    takeSeq16 mk (seq16Bytes seq ++ rest) = .command (mk seq) rest := by
  simp [seq16Bytes, takeSeq16, count16_lo16_hi16 _ h]

theorem takeMsg_msgBytes (mk : Byte → Byte → Byte → List Byte → Instr) (d s h : Byte) (data rest : List Byte)
    (hd : data.length ≤ 255) : takeMsg mk (msgBytes d s h data ++ rest) = .command (mk d s h data) rest := by
  have : data.length % 256 = data.length := Nat.mod_eq_of_lt (by omega)
  simp [msgBytes, takeMsg, lo16_toNat, this]

/-- Inversion of `takeImm8`. -/
theorem takeImm8_command {mk : Byte → Instr} {bytes rest : List Byte} {i : Instr}
    (h : takeImm8 mk bytes = .command i rest) : ∃ b, i = mk b ∧ bytes = b :: rest := by
  cases bytes with
  | nil => simp [takeImm8] at h
  | cons b bs =>
    simp only [takeImm8, Decoded.command.injEq] at h
    exact ⟨b, h.1.symm, by rw [h.2]⟩

/-- Inversion of `takeSeq16`: the operand is the counted bytes, and its count fits 16 bits. -/
theorem takeSeq16_command {mk : List Byte → Instr} {bytes rest : List Byte} {i : Instr}
    (h : takeSeq16 mk bytes = .command i rest) :
    ∃ seq, i = mk seq ∧ seq.length ≤ 65535 ∧ bytes = seq16Bytes seq ++ rest := by
  match bytes with
  | [] => simp [takeSeq16] at h
  | [_] => simp [takeSeq16] at h
  | b0 :: b1 :: bs =>
    simp only [takeSeq16] at h
    split at h
    · simp at h
    · rename_i hlen
      obtain ⟨rfl, rfl⟩ := (by simpa using h : mk (bs.take (count16 b0 b1)) = i ∧ bs.drop (count16 b0 b1) = rest)
      have h0 := b0.isLt
      have h1 := b1.isLt
      have hn : (bs.take (count16 b0 b1)).length = count16 b0 b1 := by
        rw [List.length_take]; omega
      have hc : count16 b0 b1 = b0.toNat + 256 * b1.toNat := rfl
      refine ⟨_, rfl, by rw [hn, hc]; omega, ?_⟩
      have e0 : lo16 (count16 b0 b1) = b0 := BitVec.eq_of_toNat_eq (by rw [lo16_toNat]; omega)
      have e1 : hi16 (count16 b0 b1) = b1 := BitVec.eq_of_toNat_eq (by rw [hi16_toNat _ (by omega)]; omega)
      simp [seq16Bytes, hn, e0, e1]

/-- Inversion of `takeMsg`. -/
theorem takeMsg_command {mk : Byte → Byte → Byte → List Byte → Instr} {bytes rest : List Byte} {i : Instr}
    (h : takeMsg mk bytes = .command i rest) :
    ∃ d s hd data, i = mk d s hd data ∧ data.length ≤ 255 ∧ bytes = msgBytes d s hd data ++ rest := by
  match bytes with
  | [] => simp [takeMsg] at h
  | [_] => simp [takeMsg] at h
  | [_, _] => simp [takeMsg] at h
  | [_, _, _] => simp [takeMsg] at h
  | d :: s :: hd :: len :: bs =>
    simp only [takeMsg] at h
    split at h
    · simp at h
    · rename_i hlen
      obtain ⟨rfl, rfl⟩ := (by simpa using h : mk d s hd (bs.take len.toNat) = i ∧ bs.drop len.toNat = rest)
      have hl := len.isLt
      have hn : (bs.take len.toNat).length = len.toNat := by
        rw [List.length_take]; omega
      refine ⟨d, s, hd, _, rfl, by omega, ?_⟩
      have e : lo16 len.toNat = len := BitVec.eq_of_toNat_eq (by rw [lo16_toNat]; omega)
      simp [msgBytes, hn, e]

/-- Inversion of `decode` by its opcode: the 18 rows of the opcode map, or an illegal byte of R73's ranges. -/
theorem decode_cases (op : Byte) (bs : List Byte) :
    (op.toNat = 0x10 ∧ decode (op :: bs) = .command .sumInit bs) ∨
    (op.toNat = 0x11 ∧ decode (op :: bs) = takeImm8 .sumAdd bs) ∨
    (op.toNat = 0x12 ∧ decode (op :: bs) = .command .sumRead bs) ∨
    (op.toNat = 0x13 ∧ decode (op :: bs) = takeSeq16 .sumGen bs) ∨
    (op.toNat = 0x14 ∧ decode (op :: bs) = takeSeq16 .sumCheck bs) ∨
    (op.toNat = 0x20 ∧ decode (op :: bs) = .command .crcInit bs) ∨
    (op.toNat = 0x21 ∧ decode (op :: bs) = takeImm8 .crcUpdate bs) ∨
    (op.toNat = 0x22 ∧ decode (op :: bs) = .command .crcRead bs) ∨
    (op.toNat = 0x23 ∧ decode (op :: bs) = takeSeq16 .crcGen bs) ∨
    (op.toNat = 0x24 ∧ decode (op :: bs) = takeSeq16 .crcCheck bs) ∨
    (op.toNat = 0x30 ∧ decode (op :: bs) = takeMsg .encAdd bs) ∨
    (op.toNat = 0x31 ∧ decode (op :: bs) = takeMsg .encCrc bs) ∨
    (op.toNat = 0x38 ∧ decode (op :: bs) = takeSeq16 .dec bs) ∨
    (op.toNat = 0x40 ∧ decode (op :: bs) = takeImm8 .raSetaddr bs) ∨
    (op.toNat = 0x41 ∧ decode (op :: bs) = .command .raGetaddr bs) ∨
    (op.toNat = 0x42 ∧ decode (op :: bs) = takeSeq16 .raFeed bs) ∨
    (op.toNat = 0x43 ∧ decode (op :: bs) = .command .raFlush bs) ∨
    (op.toNat = 0x44 ∧ decode (op :: bs) = .command .raLevel bs) ∨
    (decode (op :: bs) = .illegal op bs ∧ operandKind op = none ∧
      (op.toNat ≤ 0x0F ∨ (0x15 ≤ op.toNat ∧ op.toNat ≤ 0x1F) ∨ (0x25 ≤ op.toNat ∧ op.toNat ≤ 0x2F) ∨
        (0x32 ≤ op.toNat ∧ op.toNat ≤ 0x37) ∨ (0x39 ≤ op.toNat ∧ op.toNat ≤ 0x3F) ∨ 0x45 ≤ op.toNat)) := by
  by_cases h : op.toNat ∈ [0x10, 0x11, 0x12, 0x13, 0x14, 0x20, 0x21, 0x22, 0x23, 0x24, 0x30, 0x31, 0x38, 0x40, 0x41, 0x42,
      0x43, 0x44]
  · simp only [List.mem_cons, List.not_mem_nil, or_false] at h
    rcases h with h | h | h | h | h | h | h | h | h | h | h | h | h | h | h | h | h | h <;> simp [decode, h]
  · simp only [List.mem_cons, List.not_mem_nil, or_false, not_or] at h
    obtain ⟨h1, h2, h3, h4, h5, h6, h7, h8, h9, h10, h11, h12, h13, h14, h15, h16, h17, h18⟩ := h
    iterate 18 refine .inr ?_
    exact ⟨by simp only [decode], by simp only [operandKind], by omega⟩

end Sys2Proof
end

