-- ==== Sys2Proof/Laws/Frame.lean ====
section
/-! SUPPORT. The frame codec: what DECODE can answer, said once, and the sum's behaviour on a longer sequence. -/

namespace Sys2Proof.Machine

@[simp] theorem memRead_head (buf : List Byte) (n : Nat) : memRead buf 0 n = buf.take n := by
  simp [memRead]

@[simp] theorem sum8_nil : sum8 [] = 0 := rfl

theorem sum8_toNat (seq : List Byte) : (sum8 seq).toNat = (seq.map BitVec.toNat).sum % 256 := by
  simp [sum8]

theorem sum8_append (a b : List Byte) : sum8 (a ++ b) = sum8 a + sum8 b := by
  apply BitVec.eq_of_toNat_eq
  rw [BitVec.toNat_add, sum8_toNat, sum8_toNat, sum8_toNat, List.map_append, List.sum_append]
  omega

@[simp] theorem sum8_single (b : Byte) : sum8 [b] = b := by
  apply BitVec.eq_of_toNat_eq
  have := b.isLt
  rw [sum8_toNat]
  simpa using this

/-- The checksum byte is the two's complement of the sum (R101). -/
theorem checksumOf_eq_neg (v : Byte) : checksumOf v = -v := by
  apply BitVec.eq_of_toNat_eq
  rw [checksumOf, BitVec.toNat_neg]
  have := v.isLt
  simp

/-- Where DECODE finds a whole candidate frame, it answers what the frame validates as. -/
theorem decodeFrame_of_whole {buf : List Byte} (h : ¬ holdsNoWholeFrame buf) :
    decodeFrame buf = validateFrame (buf.take ((buf.getD 1 0).toNat + 5)) := by
  simp only [holdsNoWholeFrame, not_or] at h
  rw [decodeFrame, if_neg h.1, if_neg (by exact h.2), memRead_head, frameLength]

theorem decodeFrame_of_partial {buf : List Byte} (h : holdsNoWholeFrame buf) :
    decodeFrame buf = .partialMessage := by
  unfold decodeFrame frameLength
  split
  · rfl
  · rw [if_pos (by rcases h with h | h <;> omega)]

theorem validateFrame_ne_partial (f : List Byte) : validateFrame f ≠ .partialMessage := by
  unfold validateFrame
  split
  · simp
  · split <;> simp

/-- What a validated frame's outcome consumes is the frame. -/
theorem validateFrame_cases (f : List Byte) :
    (∃ m, validateFrame f = .ok m f.length ∧ m.destination = f.getD 0 0) ∨
      validateFrame f = .checksumError f.length := by
  unfold validateFrame
  split
  · exact .inl ⟨_, rfl, rfl⟩
  · split
    · exact .inl ⟨_, rfl, rfl⟩
    · exact .inr rfl

/-- Inversion of DECODE: it is partial and the buffer holds no whole frame, or it consumes the frame at the head. -/
theorem decodeFrame_cases (buf : List Byte) :
    (holdsNoWholeFrame buf ∧ decodeFrame buf = .partialMessage) ∨
    (¬ holdsNoWholeFrame buf ∧ ∃ n, n = (buf.getD 1 0).toNat + 5 ∧ n ≤ buf.length ∧
      ((∃ m, decodeFrame buf = .ok m n) ∨ decodeFrame buf = .checksumError n)) := by
  by_cases h : holdsNoWholeFrame buf
  · exact .inl ⟨h, decodeFrame_of_partial h⟩
  · refine .inr ⟨h, _, rfl, ?_, ?_⟩
    · simp only [holdsNoWholeFrame, not_or] at h
      omega
    · rw [decodeFrame_of_whole h]
      simp only [holdsNoWholeFrame, not_or] at h
      have hl : (buf.take ((buf.getD 1 0).toNat + 5)).length = (buf.getD 1 0).toNat + 5 := by
        rw [List.length_take]; omega
      rcases validateFrame_cases (buf.take ((buf.getD 1 0).toNat + 5)) with ⟨m, hm, -⟩ | hm
      · exact .inl ⟨m, by rw [hm, hl]⟩
      · exact .inr (by rw [hm, hl])

/-- Induction along the decodes of a buffer: each whole frame is at least 5 bytes, so the buffer gets shorter. -/
theorem decode_induction {P : List Byte → Prop} (partialBuf : ∀ buf, holdsNoWholeFrame buf → P buf)
    (ok : ∀ buf m n, decodeFrame buf = .ok m n → 5 ≤ n → n ≤ buf.length → P (buf.drop n) → P buf)
    (error : ∀ buf n, decodeFrame buf = .checksumError n → 5 ≤ n → n ≤ buf.length → P buf) (buf : List Byte) :
    P buf := by
  induction hl : buf.length using Nat.strong_induction_on generalizing buf with
  | _ k ih =>
    subst hl
    rcases decodeFrame_cases buf with ⟨h, -⟩ | ⟨-, n, hn, hle, ⟨m, hm⟩ | hm⟩
    · exact partialBuf buf h
    · exact ok buf _ _ hm (by omega) hle (ih _ (by rw [List.length_drop]; omega) _ rfl)
    · exact error buf _ hm (by omega) hle

end Sys2Proof.Machine
end

