-- ==== Sys2Proof/Laws/Feed.lean ====
section
/-! SUPPORT. The decode loop of RA_FEED: one equation per outcome of DECODE, and its independence of the pass bound. -/

namespace Sys2Proof.Machine

theorem feedLoop_partial {own : Byte} {buf : List Byte} (passes : Nat) (h : holdsNoWholeFrame buf) :
    feedLoop own passes buf = { rxbuf := buf, messages := [], error := false } := by
  cases passes with
  | zero => rfl
  | succ k => simp [feedLoop, decodeFrame_of_partial h]

theorem feedLoop_ok {own : Byte} {buf : List Byte} {m : Message} {n : Nat} (passes : Nat)
    (h : decodeFrame buf = .ok m n) :
    feedLoop own (passes + 1) buf =
      { feedLoop own passes (buf.drop n) with
        messages := accept own m ++ (feedLoop own passes (buf.drop n)).messages } := by
  simp [feedLoop, h, rxConsume]

theorem feedLoop_error {own : Byte} {buf : List Byte} {n : Nat} (passes : Nat)
    (h : decodeFrame buf = .checksumError n) :
    feedLoop own (passes + 1) buf = { rxbuf := [], messages := [], error := true } := by
  simp [feedLoop, h, rxClear]

/-- Once the bound covers a fifth of the buffer, it no longer matters: each pass consumes at least 5 bytes (R172). -/
theorem feedLoop_bound (own : Byte) (p q : Nat) (buf : List Byte) (hp : buf.length ≤ 5 * p + 4)
    (hq : buf.length ≤ 5 * q + 4) : feedLoop own p buf = feedLoop own q buf := by
  induction p generalizing q buf with
  | zero =>
    have h : holdsNoWholeFrame buf := by
      unfold holdsNoWholeFrame
      omega
    rw [feedLoop_partial 0 h, feedLoop_partial q h]
  | succ p ih =>
    rcases decodeFrame_cases buf with ⟨h, -⟩ | ⟨h, n, hn, hle, ⟨m, hm⟩ | hm⟩
    · rw [feedLoop_partial _ h, feedLoop_partial _ h]
    · have hd : (buf.drop n).length = buf.length - n := List.length_drop
      cases q with
      | zero => omega
      | succ q => rw [feedLoop_ok p hm, feedLoop_ok q hm, ih q _ (by omega) (by omega)]
    · cases q with
      | zero => omega
      | succ q => rw [feedLoop_error p hm, feedLoop_error q hm]

/-- What RA_FEED leaves in the buffer is no whole frame. -/
theorem feedLoop_rxbuf (own : Byte) (passes : Nat) (buf : List Byte) (hp : buf.length ≤ 5 * passes + 4) :
    holdsNoWholeFrame (feedLoop own passes buf).rxbuf := by
  induction passes generalizing buf with
  | zero => simp only [feedLoop, holdsNoWholeFrame]; omega
  | succ p ih =>
    rcases decodeFrame_cases buf with ⟨h, -⟩ | ⟨-, n, hn, hle, ⟨m, hm⟩ | hm⟩
    · rw [feedLoop_partial _ h]; exact h
    · rw [feedLoop_ok p hm]
      exact ih _ (by rw [List.length_drop]; omega)
    · rw [feedLoop_error p hm]; exact .inl (by simp)

end Sys2Proof.Machine
end

