-- ==== Sys2Proof/Laws/State.lean ====
section
/-! SUPPORT. One lemma per field per update of State, each true by rfl, so that no proof unfolds a record update. -/

namespace Sys2Proof.Machine

variable (s : State)

@[simp] theorem State.setCrcReg_crcReg (v : Word) : (s.setCrcReg v).crcReg = v := rfl
@[simp] theorem State.setCrcReg_sumReg (v : Word) : (s.setCrcReg v).sumReg = s.sumReg := rfl
@[simp] theorem State.setCrcReg_ownAddr (v : Word) : (s.setCrcReg v).ownAddr = s.ownAddr := rfl
@[simp] theorem State.setCrcReg_rxbuf (v : Word) : (s.setCrcReg v).rxbuf = s.rxbuf := rfl
@[simp] theorem State.setCrcReg_partialCmd (v : Word) : (s.setCrcReg v).partialCmd = s.partialCmd := rfl
@[simp] theorem State.setCrcReg_cmdPort (v : Word) : (s.setCrcReg v).cmdPort = s.cmdPort := rfl
@[simp] theorem State.setCrcReg_respPort (v : Word) : (s.setCrcReg v).respPort = s.respPort := rfl

@[simp] theorem State.setSumReg_crcReg (v : Byte) : (s.setSumReg v).crcReg = s.crcReg := rfl
@[simp] theorem State.setSumReg_sumReg (v : Byte) : (s.setSumReg v).sumReg = v := rfl
@[simp] theorem State.setSumReg_ownAddr (v : Byte) : (s.setSumReg v).ownAddr = s.ownAddr := rfl
@[simp] theorem State.setSumReg_rxbuf (v : Byte) : (s.setSumReg v).rxbuf = s.rxbuf := rfl
@[simp] theorem State.setSumReg_partialCmd (v : Byte) : (s.setSumReg v).partialCmd = s.partialCmd := rfl
@[simp] theorem State.setSumReg_cmdPort (v : Byte) : (s.setSumReg v).cmdPort = s.cmdPort := rfl
@[simp] theorem State.setSumReg_respPort (v : Byte) : (s.setSumReg v).respPort = s.respPort := rfl

@[simp] theorem State.setOwnAddr_crcReg (v : Byte) : (s.setOwnAddr v).crcReg = s.crcReg := rfl
@[simp] theorem State.setOwnAddr_sumReg (v : Byte) : (s.setOwnAddr v).sumReg = s.sumReg := rfl
@[simp] theorem State.setOwnAddr_ownAddr (v : Byte) : (s.setOwnAddr v).ownAddr = v := rfl
@[simp] theorem State.setOwnAddr_rxbuf (v : Byte) : (s.setOwnAddr v).rxbuf = s.rxbuf := rfl
@[simp] theorem State.setOwnAddr_partialCmd (v : Byte) : (s.setOwnAddr v).partialCmd = s.partialCmd := rfl
@[simp] theorem State.setOwnAddr_cmdPort (v : Byte) : (s.setOwnAddr v).cmdPort = s.cmdPort := rfl
@[simp] theorem State.setOwnAddr_respPort (v : Byte) : (s.setOwnAddr v).respPort = s.respPort := rfl

@[simp] theorem State.setRxbuf_crcReg (v : List Byte) : (s.setRxbuf v).crcReg = s.crcReg := rfl
@[simp] theorem State.setRxbuf_sumReg (v : List Byte) : (s.setRxbuf v).sumReg = s.sumReg := rfl
@[simp] theorem State.setRxbuf_ownAddr (v : List Byte) : (s.setRxbuf v).ownAddr = s.ownAddr := rfl
@[simp] theorem State.setRxbuf_rxbuf (v : List Byte) : (s.setRxbuf v).rxbuf = v := rfl
@[simp] theorem State.setRxbuf_partialCmd (v : List Byte) : (s.setRxbuf v).partialCmd = s.partialCmd := rfl
@[simp] theorem State.setRxbuf_cmdPort (v : List Byte) : (s.setRxbuf v).cmdPort = s.cmdPort := rfl
@[simp] theorem State.setRxbuf_respPort (v : List Byte) : (s.setRxbuf v).respPort = s.respPort := rfl

@[simp] theorem State.respond_crcReg (bytes : List Byte) : (s.respond bytes).crcReg = s.crcReg := rfl
@[simp] theorem State.respond_sumReg (bytes : List Byte) : (s.respond bytes).sumReg = s.sumReg := rfl
@[simp] theorem State.respond_ownAddr (bytes : List Byte) : (s.respond bytes).ownAddr = s.ownAddr := rfl
@[simp] theorem State.respond_rxbuf (bytes : List Byte) : (s.respond bytes).rxbuf = s.rxbuf := rfl
@[simp] theorem State.respond_partialCmd (bytes : List Byte) : (s.respond bytes).partialCmd = s.partialCmd := rfl
@[simp] theorem State.respond_cmdPort (bytes : List Byte) : (s.respond bytes).cmdPort = s.cmdPort := rfl
@[simp] theorem State.respond_respPort (bytes : List Byte) : (s.respond bytes).respPort = s.respPort ++ bytes := rfl

@[simp] theorem State.setPort_crcReg (held : List Byte) (events : List PortEvent) : (s.setPort held events).crcReg = s.crcReg := rfl
@[simp] theorem State.setPort_sumReg (held : List Byte) (events : List PortEvent) : (s.setPort held events).sumReg = s.sumReg := rfl
@[simp] theorem State.setPort_ownAddr (held : List Byte) (events : List PortEvent) : (s.setPort held events).ownAddr = s.ownAddr := rfl
@[simp] theorem State.setPort_rxbuf (held : List Byte) (events : List PortEvent) : (s.setPort held events).rxbuf = s.rxbuf := rfl
@[simp] theorem State.setPort_partialCmd (held : List Byte) (events : List PortEvent) : (s.setPort held events).partialCmd = held := rfl
@[simp] theorem State.setPort_cmdPort (held : List Byte) (events : List PortEvent) : (s.setPort held events).cmdPort = events := rfl
@[simp] theorem State.setPort_respPort (held : List Byte) (events : List PortEvent) : (s.setPort held events).respPort = s.respPort := rfl

@[simp] theorem State.afterCommand_crcReg (rest : List Byte) : (s.afterCommand rest).crcReg = s.crcReg := rfl
@[simp] theorem State.afterCommand_sumReg (rest : List Byte) : (s.afterCommand rest).sumReg = s.sumReg := rfl
@[simp] theorem State.afterCommand_ownAddr (rest : List Byte) : (s.afterCommand rest).ownAddr = s.ownAddr := rfl
@[simp] theorem State.afterCommand_rxbuf (rest : List Byte) : (s.afterCommand rest).rxbuf = s.rxbuf := rfl
@[simp] theorem State.afterCommand_partialCmd (rest : List Byte) : (s.afterCommand rest).partialCmd = [] := rfl
@[simp] theorem State.afterCommand_cmdPort (rest : List Byte) : (s.afterCommand rest).cmdPort = rest.map .byte ++ portFromReset s.cmdPort := rfl
@[simp] theorem State.afterCommand_respPort (rest : List Byte) : (s.afterCommand rest).respPort = s.respPort := rfl

@[simp] theorem State.receive_crcReg (bytes : List Byte) : (s.receive bytes).crcReg = s.crcReg := rfl
@[simp] theorem State.receive_sumReg (bytes : List Byte) : (s.receive bytes).sumReg = s.sumReg := rfl
@[simp] theorem State.receive_ownAddr (bytes : List Byte) : (s.receive bytes).ownAddr = s.ownAddr := rfl
@[simp] theorem State.receive_rxbuf (bytes : List Byte) : (s.receive bytes).rxbuf = s.rxbuf := rfl
@[simp] theorem State.receive_partialCmd (bytes : List Byte) : (s.receive bytes).partialCmd = s.partialCmd := rfl
@[simp] theorem State.receive_cmdPort (bytes : List Byte) : (s.receive bytes).cmdPort = s.cmdPort ++ bytes.map .byte := rfl
@[simp] theorem State.receive_respPort (bytes : List Byte) : (s.receive bytes).respPort = s.respPort := rfl

@[simp] theorem State.receiveReset_crcReg : (s.receiveReset).crcReg = s.crcReg := rfl
@[simp] theorem State.receiveReset_sumReg : (s.receiveReset).sumReg = s.sumReg := rfl
@[simp] theorem State.receiveReset_ownAddr : (s.receiveReset).ownAddr = s.ownAddr := rfl
@[simp] theorem State.receiveReset_rxbuf : (s.receiveReset).rxbuf = s.rxbuf := rfl
@[simp] theorem State.receiveReset_partialCmd : (s.receiveReset).partialCmd = s.partialCmd := rfl
@[simp] theorem State.receiveReset_cmdPort : (s.receiveReset).cmdPort = s.cmdPort ++ [.reset] := rfl
@[simp] theorem State.receiveReset_respPort : (s.receiveReset).respPort = s.respPort := rfl

@[simp] theorem State.afterReset_crcReg : (s.afterReset).crcReg = 0x0000 := rfl
@[simp] theorem State.afterReset_sumReg : (s.afterReset).sumReg = 0x00 := rfl
@[simp] theorem State.afterReset_ownAddr : (s.afterReset).ownAddr = Config.ownAddrReset := rfl
@[simp] theorem State.afterReset_rxbuf : (s.afterReset).rxbuf = [] := rfl
@[simp] theorem State.afterReset_partialCmd : (s.afterReset).partialCmd = [] := rfl
@[simp] theorem State.afterReset_cmdPort : (s.afterReset).cmdPort = s.cmdPort := rfl
@[simp] theorem State.afterReset_respPort : (s.afterReset).respPort = s.respPort := rfl

end Sys2Proof.Machine
end

