-- ==== Sys2Proof/Laws/Outcome.lean ====
section
/-! SUPPORT. What the shared operations of a meaning can answer, said once: `complete`, `raiseError`, the operand checks,
and the two reports. Later proofs cite these and do not unfold them. -/

namespace Sys2Proof.Machine

theorem complete_next {fields : List Byte} {s t : State} :
    complete fields s = .next t ↔ t = s.respond (0x00 :: fields) := by
  simp [complete, Status.code, eq_comm]

theorem raiseError_next {e : ErrorOutcome} {info : List Byte} {s t : State} :
    raiseError e info s = .next t ↔ t = s.respond (e.status.code :: info) := by
  simp [raiseError, eq_comm]

/-- A `seq16` command answers a next state exactly when its operand fits and its body does. -/
theorem withSeq16_next {seq : List Byte} {body : Result} {t : State} :
    withSeq16 seq body = .next t ↔ seq.length ≤ Config.maxSeq ∧ body = .next t := by
  unfold withSeq16 seqFits
  by_cases h : seq.length ≤ Config.maxSeq <;> simp [h]

/-- A `msg` command answers a next state exactly when its data fits and its body does. -/
theorem withMsg_next {data : List Byte} {body : Result} {t : State} :
    withMsg data body = .next t ↔ data.length ≤ Config.maxData ∧ body = .next t := by
  unfold withMsg dataFits
  by_cases h : data.length ≤ Config.maxData <;> simp [h]

theorem withSeq16_of_fits {seq : List Byte} (body : Result) (h : seq.length ≤ Config.maxSeq) :
    withSeq16 seq body = body := by
  simp [withSeq16, seqFits, h]

theorem withMsg_of_fits {data : List Byte} (body : Result) (h : data.length ≤ Config.maxData) :
    withMsg data body = body := by
  simp [withMsg, dataFits, h]

/-- The response of DEC for an outcome of DECODE (R151). -/
def decodeResponse : DecodeResult → List Byte
  | .partialMessage => 0x01 :: word16 0
  | .checksumError n => 0x02 :: word16 n
  | .ok m n => 0x00 :: (word16 n ++ messageRecord m)

theorem reportDecode_eq (r : DecodeResult) (s : State) :
    reportDecode r s = .next (s.respond (decodeResponse r)) := by
  cases r <;> rfl

/-- The response of RA.FEED for what RA_FEED returned (R179). -/
def feedResponse (r : FeedResult) : List Byte := (if r.error then 0x02 else 0x00) :: feedFields r.messages

theorem reportFeed_eq (r : FeedResult) (s : State) :
    reportFeed r s = .next (s.respond (feedResponse r)) := by
  unfold reportFeed feedResponse
  cases r.error <;> rfl

/-- What a command does: the state it leaves before its response, and the response. -/
def effect : Instr → State → State × List Byte
  | .sumInit, s => (s.setSumReg 0x00, [0x00])
  | .sumAdd b, s => (s.setSumReg (s.sumReg + b), [0x00])
  | .sumRead, s => (s, [0x00, s.sumReg, checksumOf s.sumReg])
  | .sumGen seq, s => (s, [0x00, checksum seq])
  | .sumCheck seq, s => (s, [0x00, okByte (sumValid seq)])
  | .crcInit, s => (s.setCrcReg crcInitial, [0x00])
  | .crcUpdate b, s => (s.setCrcReg (crcStep s.crcReg b), [0x00])
  | .crcRead, s => (s, [0x00, crcLo s.crcReg, crcHi s.crcReg])
  | .crcGen seq, s => (s, [0x00, crcLo (crc16 seq), crcHi (crc16 seq)])
  | .crcCheck seq, s => (s, [0x00, okByte (crcValid seq)])
  | .encAdd dest src header data, s => (s, 0x00 :: encodeAdd dest src header data)
  | .encCrc dest src header data, s => (s, 0x00 :: encodeCrc dest src header data)
  | .dec seq, s => (s, decodeResponse (decodeFrame seq))
  | .raSetaddr a, s => (s.setOwnAddr a, [0x00])
  | .raGetaddr, s => (s, [0x00, s.ownAddr])
  | .raFeed chunk, s =>
    (s.setRxbuf (raFeed s.ownAddr s.rxbuf chunk).rxbuf, feedResponse (raFeed s.ownAddr s.rxbuf chunk))
  | .raFlush, s => (s.setRxbuf [], 0x00 :: word16 s.level.toNat)
  | .raLevel, s => (s, 0x00 :: word16 s.level.toNat)

/-- A command that can be written answers a next state: its effect, then its response on the port. -/
theorem exec_of_wellFormed (i : Instr) (s : State) (h : i.wellFormed = true) :
    exec i s = .next ((effect i s).1.respond (effect i s).2) := by
  cases i <;>
    first
    | rfl
    | (simp only [Instr.wellFormed, seqFits, dataFits, decide_eq_true_eq] at h
       simp [exec, effect, execSumGen, execSumCheck, execCrcGen, execCrcCheck, execEncAdd, execEncCrc, execDec,
         execRaFeed, withSeq16_of_fits, withMsg_of_fits, h, reportDecode_eq, reportFeed_eq, complete, Status.code])

/-- Inversion of `exec`: a next state is the command's effect and response, and the command can be written. -/
theorem exec_next {i : Instr} {s t : State} (h : exec i s = .next t) :
    i.wellFormed = true ∧ t = (effect i s).1.respond (effect i s).2 := by
  have hw : i.wellFormed = true := by
    cases i <;>
      first
      | rfl
      | (have := (withSeq16_next.mp h).1; simpa [Instr.wellFormed, seqFits] using this)
      | (have := (withMsg_next.mp h).1; simpa [Instr.wellFormed, dataFits] using this)
  rw [exec_of_wellFormed i s hw] at h
  exact ⟨hw, by simpa [eq_comm] using h⟩

end Sys2Proof.Machine
end

