-- ==== Sys2Proof/Laws/PerInstr.lean ====
section
/-! SUPPORT. Family OperandLayout: a command that can be written has the operand layout its opcode selects, and its
encoding is as long as R71 says. One lemma per constructor. -/

namespace Sys2Proof.Laws.OperandLayout

/-- The layout of each operand kind, as a relation on operand bytes (R70). -/
def Fits : OperandKind → List Byte → Prop
  | .none, bytes => bytes = []
  | .imm8, bytes => ∃ b, bytes = [b]
  | .seq16, bytes => ∃ b0 b1 seq, bytes = b0 :: b1 :: seq ∧ seq.length = count16 b0 b1
  | .msg, bytes => ∃ d s h len data, bytes = d :: s :: h :: len :: data ∧ data.length = len.toNat

/-- The opcode of the command selects a layout, its operand bytes have it, and R71's length is the encoding's. -/
def Statement (i : Instr) : Prop :=
  i.wellFormed = true →
    (∃ k, operandKind (opcodeOf i) = some k ∧ Fits k (operandBytes i)) ∧ (encode i).length = commandLength (encode i)

theorem seq16_fits {seq : List Byte} (h : seqFits seq = true) : Fits .seq16 (seq16Bytes seq) :=
  ⟨_, _, seq, rfl, (count16_lo16_hi16 _ (seqFits_iff.mp h)).symm⟩

theorem msg_fits {d s h : Byte} {data : List Byte} (hd : dataFits data = true) :
    Fits .msg (msgBytes d s h data) := by
  have : data.length ≤ 255 := dataFits_iff.mp hd
  exact ⟨d, s, h, _, data, rfl, by rw [lo16_toNat]; omega⟩

theorem seq16_length {op : Byte} {seq : List Byte} (ho : operandKind op = some .seq16) (h : seqFits seq = true) :
    (op :: seq16Bytes seq).length = commandLength (op :: seq16Bytes seq) := by
  have := count16_lo16_hi16 seq.length (seqFits_iff.mp h)
  simp only [commandLength, seq16Bytes, List.getD_cons_zero, List.getD_cons_succ, ho, this, List.length_cons]
  omega

theorem msg_length {op d s h : Byte} {data : List Byte} (ho : operandKind op = some .msg)
    (hd : dataFits data = true) : (op :: msgBytes d s h data).length = commandLength (op :: msgBytes d s h data) := by
  have : data.length ≤ 255 := dataFits_iff.mp hd
  simp only [commandLength, msgBytes, List.getD_cons_zero, List.getD_cons_succ, ho, lo16_toNat, List.length_cons]
  omega

theorem sumInit : Statement .sumInit := fun _ => ⟨⟨_, rfl, rfl⟩, rfl⟩
theorem sumAdd (b : Byte) : Statement (.sumAdd b) := fun _ => ⟨⟨_, rfl, b, rfl⟩, rfl⟩
theorem sumRead : Statement .sumRead := fun _ => ⟨⟨_, rfl, rfl⟩, rfl⟩
theorem sumGen (seq : List Byte) : Statement (.sumGen seq) := fun h => ⟨⟨_, rfl, seq16_fits h⟩, seq16_length rfl h⟩
theorem sumCheck (seq : List Byte) : Statement (.sumCheck seq) := fun h => ⟨⟨_, rfl, seq16_fits h⟩, seq16_length rfl h⟩
theorem crcInit : Statement .crcInit := fun _ => ⟨⟨_, rfl, rfl⟩, rfl⟩
theorem crcUpdate (b : Byte) : Statement (.crcUpdate b) := fun _ => ⟨⟨_, rfl, b, rfl⟩, rfl⟩
theorem crcRead : Statement .crcRead := fun _ => ⟨⟨_, rfl, rfl⟩, rfl⟩
theorem crcGen (seq : List Byte) : Statement (.crcGen seq) := fun h => ⟨⟨_, rfl, seq16_fits h⟩, seq16_length rfl h⟩
theorem crcCheck (seq : List Byte) : Statement (.crcCheck seq) := fun h => ⟨⟨_, rfl, seq16_fits h⟩, seq16_length rfl h⟩
theorem encAdd (dest src header : Byte) (data : List Byte) : Statement (.encAdd dest src header data) :=
  fun h => ⟨⟨_, rfl, msg_fits h⟩, msg_length rfl h⟩
theorem encCrc (dest src header : Byte) (data : List Byte) : Statement (.encCrc dest src header data) :=
  fun h => ⟨⟨_, rfl, msg_fits h⟩, msg_length rfl h⟩
theorem dec (seq : List Byte) : Statement (.dec seq) := fun h => ⟨⟨_, rfl, seq16_fits h⟩, seq16_length rfl h⟩
theorem raSetaddr (a : Byte) : Statement (.raSetaddr a) := fun _ => ⟨⟨_, rfl, a, rfl⟩, rfl⟩
theorem raGetaddr : Statement .raGetaddr := fun _ => ⟨⟨_, rfl, rfl⟩, rfl⟩
theorem raFeed (chunk : List Byte) : Statement (.raFeed chunk) := fun h => ⟨⟨_, rfl, seq16_fits h⟩, seq16_length rfl h⟩
theorem raFlush : Statement .raFlush := fun _ => ⟨⟨_, rfl, rfl⟩, rfl⟩
theorem raLevel : Statement .raLevel := fun _ => ⟨⟨_, rfl, rfl⟩, rfl⟩

end Sys2Proof.Laws.OperandLayout
end

