-- ==== Sys2Proof/Laws/Port.lean ====
section
/-! SUPPORT. The command port: its bytes before a reset and what follows, and what `fetch` and `step` do in each case. -/

namespace Sys2Proof.Machine

@[simp] theorem portBytes_map_append (bytes : List Byte) (events : List PortEvent) :
    portBytes (bytes.map .byte ++ events) = bytes ++ portBytes events := by
  induction bytes with
  | nil => rfl
  | cons b bs ih => simp [portBytes, ih]

@[simp] theorem portFromReset_map_append (bytes : List Byte) (events : List PortEvent) :
    portFromReset (bytes.map .byte ++ events) = portFromReset events := by
  induction bytes with
  | nil => rfl
  | cons b bs ih => simp [portFromReset, ih]

/-- The port is its bytes before the next reset, then the port from that reset on. -/
theorem port_split (events : List PortEvent) :
    (portBytes events).map .byte ++ portFromReset events = events := by
  induction events with
  | nil => rfl
  | cons e es ih => cases e <;> simp [portBytes, portFromReset, ih]

/-- From its next reset on, the port is empty or starts with that reset. -/
theorem portFromReset_cases (events : List PortEvent) :
    portFromReset events = [] ∨ ∃ later, portFromReset events = .reset :: later := by
  induction events with
  | nil => exact .inl rfl
  | cons e es ih => cases e <;> simp [portFromReset, ih]

theorem step_of_illegal {s : State} {op : Byte} {rest : List Byte} (h : decode s.commandBytes = .illegal op rest) :
    step s = .next ((s.afterCommand rest).respond [0xFF]) := by
  simp [step, fetch, h, raiseError, ErrorOutcome.status, Status.code]

theorem step_of_reset {s : State} {later : List PortEvent} (h : decode s.commandBytes = .incomplete)
    (hp : portFromReset s.cmdPort = .reset :: later) : step s = .next (s.setPort [] later).afterReset := by
  simp [step, fetch, h, hp]

theorem step_of_wait {s : State} (h : decode s.commandBytes = .incomplete) (hp : portFromReset s.cmdPort = []) :
    step s = .next (s.setPort s.commandBytes []) := by
  simp [step, fetch, h, hp]

/-- Inversion of `step`: the four things a step can be. -/
theorem step_cases (s : State) :
    (∃ i rest, decode s.commandBytes = .command i rest ∧ step s = exec i (s.afterCommand rest)) ∨
    (∃ op rest, decode s.commandBytes = .illegal op rest ∧ step s = .next ((s.afterCommand rest).respond [0xFF])) ∨
    (∃ later, decode s.commandBytes = .incomplete ∧ portFromReset s.cmdPort = .reset :: later ∧
      step s = .next (s.setPort [] later).afterReset) ∨
    (decode s.commandBytes = .incomplete ∧ portFromReset s.cmdPort = [] ∧
      step s = .next (s.setPort s.commandBytes [])) := by
  cases hd : decode s.commandBytes with
  | command i rest => exact .inl ⟨i, rest, rfl, by simp [step, fetch, hd]⟩
  | illegal op rest => exact .inr (.inl ⟨op, rest, rfl, step_of_illegal hd⟩)
  | incomplete =>
    rcases portFromReset_cases s.cmdPort with hp | ⟨later, hp⟩
    · exact .inr (.inr (.inr ⟨rfl, hp, step_of_wait hd hp⟩))
    · exact .inr (.inr (.inl ⟨later, rfl, hp, step_of_reset hd hp⟩))

end Sys2Proof.Machine
end

