-- ==== Sys2Proof/Tests/Slice0.lean ====
section
/-! SUPPORT. The model's own tests. Expected values come from the spec: its vectors and programs (95_test_vectors.md, named
V-* and P*), its rules' examples, or words written out from opcode_table.json. -/

namespace Sys2Proof.Machine.Tests

set_option Elab.async false

/-- A block with OWN_ADDR 02 and register values of no special meaning. -/
def block : State where
  crcReg := 0x1234
  sumReg := 0x55
  ownAddr := 0x02
  rxbuf := []
  partialCmd := []
  cmdPort := []
  respPort := []

/-- The outcome is exactly this next state. -/
def nextIs (r : Result) (t : State) : Bool :=
  match r with
  | .next s => s == t
  | .fault _ => false
  | .refused _ => false

/-- The outcome is a next state whose response port holds these bytes. -/
def answers (r : Result) (bytes : List Byte) : Bool :=
  match r with
  | .next s => s.respPort == bytes
  | .fault _ => false
  | .refused _ => false

/-- The additive frame `fr` and the CRC16 poll `crc` of the spec's vectors. -/
def fr : List Byte := [0x02, 0x02, 0x01, 0xFE, 0x10, 0x20, 0xCD]
def crcPoll : List Byte := [0x02, 0x00, 0xB1, 0xFE, 0x60]
def badFrame : List Byte := [0x02, 0x00, 0x01, 0xFE, 0x00]

/-! ### WellFormed: each check refuses an ill-formed term and passes the longest well-formed one -/

theorem test_wf_seq_too_long : (Instr.sumGen (List.replicate 65536 0)).wellFormed = false := by
  simp only [Instr.wellFormed, seqFits, Config.maxSeq, List.length_replicate]; decide
theorem test_wf_seq_longest : (Instr.raFeed (List.replicate 65535 0)).wellFormed = true := by
  simp only [Instr.wellFormed, seqFits, Config.maxSeq, List.length_replicate]; decide
theorem test_wf_data_too_long : (Instr.encAdd 2 1 0 (List.replicate 256 0)).wellFormed = false := by
  simp only [Instr.wellFormed, dataFits, Config.maxData, List.length_replicate]; decide
theorem test_wf_data_longest : (Instr.encCrc 2 1 0 (List.replicate 255 0)).wellFormed = true := by
  simp only [Instr.wellFormed, dataFits, Config.maxData, List.length_replicate]; decide

/-! ### Decode: words written out from the spec's encodings (R70, R72), one for every constructor -/

theorem test_decode_sumInit : decode [0b00010000] = .command .sumInit [] := by decide
theorem test_decode_sumAdd : decode [0b00010001, 0b11110101] = .command (.sumAdd 0xF5) [] := by decide
theorem test_decode_sumRead : decode [0b00010010, 0x99] = .command .sumRead [0x99] := by decide
theorem test_decode_sumGen : decode [0b00010011, 0x04, 0x00, 0x02, 0x00, 0x01, 0xF5] =
    .command (.sumGen [0x02, 0x00, 0x01, 0xF5]) [] := by decide
theorem test_decode_sumCheck : decode [0b00010100, 0x02, 0x00, 0xFF, 0x01] = .command (.sumCheck [0xFF, 0x01]) [] := by
  decide
theorem test_decode_crcInit : decode [0b00100000] = .command .crcInit [] := by decide
theorem test_decode_crcUpdate : decode [0b00100001, 0xFE] = .command (.crcUpdate 0xFE) [] := by decide
theorem test_decode_crcRead : decode [0b00100010] = .command .crcRead [] := by decide
theorem test_decode_crcGen : decode [0b00100011, 0x03, 0x00, 0x02, 0x00, 0xFE] =
    .command (.crcGen [0x02, 0x00, 0xFE]) [] := by decide
theorem test_decode_crcCheck : decode [0b00100100, 0x00, 0x00, 0x20] = .command (.crcCheck []) [0x20] := by decide
theorem test_decode_encAdd : decode [0b00110000, 0x01, 0x02, 0x00, 0x01, 0x41] =
    .command (.encAdd 0x01 0x02 0x00 [0x41]) [] := by decide
theorem test_decode_encCrc : decode [0b00110001, 0x02, 0x09, 0xFE, 0x00] =
    .command (.encCrc 0x02 0x09 0xFE []) [] := by decide
theorem test_decode_dec : decode [0b00111000, 0x03, 0x00, 0x02, 0x01, 0x01] =
    .command (.dec [0x02, 0x01, 0x01]) [] := by decide
theorem test_decode_raSetaddr : decode [0b01000000, 0x02] = .command (.raSetaddr 0x02) [] := by decide
theorem test_decode_raGetaddr : decode [0b01000001] = .command .raGetaddr [] := by decide
theorem test_decode_raFeed : decode [0b01000010, 0x03, 0x00, 0x02, 0x02, 0x01, 0x44] =
    .command (.raFeed [0x02, 0x02, 0x01]) [0x44] := by decide
theorem test_decode_raFlush : decode [0b01000011] = .command .raFlush [] := by decide
theorem test_decode_raLevel : decode [0b01000100] = .command .raLevel [] := by decide

/-- R70, R43: the count's low byte comes first: 0x0102 bytes are 258, so 3 bytes are not enough. -/
theorem test_decode_count_is_little_endian : decode [0x13, 0x02, 0x01, 0xAA, 0xBB, 0xCC] = .incomplete := by decide
/-- V-SYS-1: the illegal opcode bytes of the vector. -/
theorem test_decode_illegal : ∀ op ∈ ([0x00, 0x0F, 0x15, 0x25, 0x32, 0x39, 0x45, 0x55, 0xFF] : List Byte),
    decode [op, 0x20] = .illegal op [0x20] := by decide
/-- R72, R73: exactly 18 of the 256 opcode bytes are legal. -/
theorem test_decode_eighteen_opcodes :
    ((List.range 256).filter fun n => (operandKind (BitVec.ofNat 8 n)).isSome).length = 18 := by decide +kernel
/-- R70: UNIT and FN of RA.FEED's and DEC's opcode. -/
theorem test_opcode_fields : opcodeUnit 0x42 = 4 ∧ opcodeFn 0x42 = 2 ∧ opcodeUnit 0x38 = 3 ∧ opcodeFn 0x38 = 8 := by
  decide
/-- P4: the encoder writes the spec's bytes. -/
theorem test_encode_feed : encode (.raFeed crcPoll) = [0x42, 0x05, 0x00, 0x02, 0x00, 0xB1, 0xFE, 0x60] := by decide
theorem test_encode_encAdd : encode (.encAdd 0x02 0x01 0xFE [0x10, 0x20]) = [0x30, 0x02, 0x01, 0xFE, 0x02, 0x10, 0x20] := by
  decide

/-! ### The host's two questions: a table word decodes, and the first step after reset runs it -/

theorem test_table_none : decodeTableWord 8 0x20 = some .crcInit := by decide
theorem test_table_imm8_short : decodeTableWord 8 0x11 = some (.sumAdd 0) := by decide
theorem test_table_imm8_full : decodeTableWord 16 0xF511 = some (.sumAdd 0xF5) := by decide
theorem test_table_seq16 : decodeTableWord 8 0x42 = some (.raFeed []) := by decide
theorem test_table_seq16_count : decodeTableWord 24 0x000238 = some (.dec [0, 0]) := by decide
theorem test_table_msg : decodeTableWord 40 0x00FE010230 = some (.encAdd 0x02 0x01 0xFE []) := by decide
theorem test_table_illegal : decodeTableWord 8 0x55 = none := by decide
theorem test_fetchWord_runs_first : answers (step (State.reset.withFetchWord 8 0x22)) [0x00, 0x00, 0x00] = true := by
  decide
theorem test_fetchWord_takes_exactly_it :
    nextIs (step ({ block with partialCmd := [0x42] }.withFetchWord 16 0xF511))
      { block with sumReg := 0x4A, respPort := [0x00] } = true := by decide

/-! ### Additive unit (V-ADD-*) -/

/-- V-ADD-1 to V-ADD-6. -/
theorem test_sum8_checksum : (sum8 [], checksum []) = (0x00, 0x00) ∧ (sum8 [0x01], checksum [0x01]) = (0x01, 0xFF) ∧
    (sum8 [0xFF, 0x01], checksum [0xFF, 0x01]) = (0x00, 0x00) ∧ (sum8 [0x80], checksum [0x80]) = (0x80, 0x80) ∧
    (sum8 [0x01, 0x02, 0x03, 0x04, 0x05], checksum [0x01, 0x02, 0x03, 0x04, 0x05]) = (0x0F, 0xF1) := by decide
theorem test_sumInit : nextIs (exec .sumInit { block with sumReg := 0x7A })
    { block with sumReg := 0x00, respPort := [0x00] } = true := by decide
theorem test_sumAdd_wraps : nextIs (exec (.sumAdd 0x05) { block with sumReg := 0xFE })
    { block with sumReg := 0x03, respPort := [0x00] } = true := by decide
theorem test_sumRead : nextIs (exec .sumRead { block with sumReg := 0xF8 })
    { block with sumReg := 0xF8, respPort := [0x00, 0xF8, 0x08] } = true := by decide
theorem test_sumRead_zero : answers (exec .sumRead { block with sumReg := 0x00 }) [0x00, 0x00, 0x00] = true := by decide
theorem test_sumGen : nextIs (exec (.sumGen [0x02, 0x00, 0x01, 0xF5]) block)
    { block with respPort := [0x00, 0x08] } = true := by decide
theorem test_sumGen_three_ff : answers (exec (.sumGen [0xFF, 0xFF, 0xFF]) block) [0x00, 0x03] = true := by decide
theorem test_sumCheck : answers (exec (.sumCheck [0x02, 0x00, 0x01, 0xF5, 0x08]) block) [0x00, 0x01] = true := by decide
theorem test_sumCheck_fails : answers (exec (.sumCheck badFrame) block) [0x00, 0x00] = true := by decide

/-! ### CRC unit (V-CRC-*) -/

/-- V-CRC-2, 3 and 5. -/
theorem test_crcStep : crcStep 0x0000 0x01 = 0x1021 ∧ crcStep 0x8000 0x00 = 0x9188 ∧ crcStep 0x1234 0x56 = 0x3C40 ∧
    crcStep 0xFFFF 0x00 = 0xE1F0 ∧ crcStep 0x1021 0x10 = 0x2100 := by decide +kernel
/-- V-CRC-6 and V-CRC-9. -/
theorem test_crc16 : crc16 [0x31, 0x32, 0x33, 0x34, 0x35, 0x36, 0x37, 0x38, 0x39] = 0x31C3 ∧ crc16 [0x31] = 0x2672 ∧
    crc16 [0x01, 0x00, 0x00] = 0x3730 ∧ crc16 [0xFF, 0xFF, 0xFF, 0xFF] = 0x99CF ∧
    crc16 [0x02, 0x01, 0x01, 0x91] = 0x7AF1 := by decide +kernel
theorem test_crcInit : nextIs (exec .crcInit { block with crcReg := 0xBEEF })
    { block with crcReg := 0x0000, respPort := [0x00] } = true := by decide
theorem test_crcUpdate : nextIs (exec (.crcUpdate 0xFF) { block with crcReg := 0xFFFF })
    { block with crcReg := 0xFF00, respPort := [0x00] } = true := by decide +kernel
theorem test_crcRead_low_first : nextIs (exec .crcRead { block with crcReg := 0x60B1 })
    { block with crcReg := 0x60B1, respPort := [0x00, 0xB1, 0x60] } = true := by decide
theorem test_crcGen : nextIs (exec (.crcGen [0x31, 0x32, 0x33, 0x34, 0x35, 0x36, 0x37, 0x38, 0x39]) block)
    { block with respPort := [0x00, 0xC3, 0x31] } = true := by decide +kernel
theorem test_crcCheck : answers (exec (.crcCheck crcPoll) block) [0x00, 0x01] = true := by decide +kernel
/-- V-CRC-22: the length byte is ignored, and the last byte of the sequence is what is compared. -/
theorem test_crcCheck_six_bytes : answers (exec (.crcCheck (crcPoll ++ [0x00])) block) [0x00, 0x00] = true := by
  decide +kernel

/-! ### Frame codec (V-CODEC-*) -/

theorem test_encAdd : answers (exec (.encAdd 0xFF 0xFF 0xFF [0xFF]) block) [0x00, 0xFF, 0x01, 0xFF, 0xFF, 0xFF, 0x03] = true := by
  decide
/-- V-CODEC-5: 255 data bytes give a 260-byte frame that ends in A1. -/
theorem test_encAdd_longest : (encodeAdd 0x02 0x01 0x07 (List.replicate 255 0xAA)).length = 260 ∧
    (encodeAdd 0x02 0x01 0x07 (List.replicate 255 0xAA)).getLast? = some 0xA1 := by decide +kernel
theorem test_encCrc : answers (exec (.encCrc 0x02 0x01 0x01 []) block) [0x00, 0x02, 0x00, 0x41, 0x01, 0x7E] = true := by
  decide +kernel
theorem test_encCrc_ignores_src : answers (exec (.encCrc 0x02 0x07 0xFE []) block) [0x00, 0x02, 0x00, 0xB1, 0xFE, 0x60] = true := by
  decide +kernel
/-- V-CODEC-9: a CRC16 frame that sums to 0 is read as additive. -/
theorem test_dec_ambiguous : answers (exec (.dec [0x02, 0x01, 0xF1, 0x01, 0x91, 0x7A]) block)
    [0x00, 0x06, 0x00, 0x02, 0x01, 0xF1, 0x01, 0x00, 0x91] = true := by decide +kernel
/-- V-SYS-5: a checksum error in DEC changes nothing. -/
theorem test_dec_error : nextIs (exec (.dec badFrame) { block with rxbuf := [0x02] })
    { block with rxbuf := [0x02], respPort := [0x02, 0x05, 0x00] } = true := by decide +kernel
/-- V-CODEC-15, 19, 22. -/
theorem test_decode_outcomes : decodeFrame [0x02, 0x01, 0x01, 0xFE, 0x00] = .partialMessage ∧
    decodeFrame [0x02, 0x00, 0x01, 0xFE, 0xFF, 0x02, 0x00] = .ok ⟨0x02, 0x00, 0x01, 0xFE, [], .additive⟩ 5 ∧
    decodeFrame [0x02, 0x02, 0x89, 0x00, 0x11, 0x22, 0x9D] = .ok ⟨0x02, 0x02, 0x01, 0x00, [0x11, 0x22], .crc16⟩ 7 := by
  decide +kernel
/-- V-CODEC-16 and 17: `len + 5` is not wrapped, 259 bytes are partial, 260 are a frame. -/
theorem test_decode_259_bytes_partial : decodeFrame (0x02 :: 0xFF :: List.replicate 257 0x00) = .partialMessage := by
  decide +kernel
theorem test_decode_260_bytes_whole : decodeFrame (0x02 :: 0xFF :: List.replicate 258 0x00) ≠ .partialMessage := by
  rw [decodeFrame_of_whole (by decide +kernel)]
  exact validateFrame_ne_partial _

/-! ### Reassembler (V-RA-*) -/

theorem test_raFeed : nextIs (exec (.raFeed fr) block)
    { block with respPort := [0x00, 0x01, 0x00, 0x02, 0x02, 0x01, 0xFE, 0x00, 0x10, 0x20] } = true := by decide +kernel
/-- V-RA-8: the message before the error is kept, the frame after it is lost. -/
theorem test_raFeed_error : nextIs (exec (.raFeed (fr ++ badFrame ++ fr)) block)
    { block with respPort := [0x02, 0x01, 0x00, 0x02, 0x02, 0x01, 0xFE, 0x00, 0x10, 0x20] } = true := by decide +kernel
/-- V-RA-3, 4, 9, 10: two records; another node's frame; its corrupted frame; a partial tail is kept. -/
theorem test_feed_results :
    (raFeed 0x02 [] (fr ++ crcPoll)).messages.map (·.checksumType) = [.additive, .crc16] ∧
    raFeed 0x02 [] [0x03, 0x00, 0x01, 0xFE, 0xFE] = ⟨[], [], false⟩ ∧
    raFeed 0x02 [] [0x03, 0x00, 0x01, 0xFE, 0x00] = ⟨[], [], true⟩ ∧
    (raFeed 0x02 [] (fr ++ [0x02, 0x02, 0x01])).rxbuf = [0x02, 0x02, 0x01] := by decide +kernel
/-- V-RA-6 in the byte-serial form. -/
theorem test_stream_discards : streamFeed 0x02 [] (badFrame ++ crcPoll) = ⟨[], [], true⟩ := by decide +kernel
theorem test_raSetaddr : nextIs (exec (.raSetaddr 0x01) block) { block with ownAddr := 0x01, respPort := [0x00] } = true := by
  decide
theorem test_raGetaddr : nextIs (exec .raGetaddr block) { block with respPort := [0x00, 0x02] } = true := by decide
theorem test_raLevel : nextIs (exec .raLevel { block with rxbuf := [0x02, 0x02, 0x01] })
    { block with rxbuf := [0x02, 0x02, 0x01], respPort := [0x00, 0x03, 0x00] } = true := by decide
/-- V-RA-11: the largest level, 259 = 0x0103. -/
theorem test_raLevel_largest : answers (exec .raLevel { block with rxbuf := List.replicate 259 0xFF }) [0x00, 0x03, 0x01] = true := by
  decide +kernel
theorem test_raFlush : nextIs (exec .raFlush { block with rxbuf := [0x02] }) { block with respPort := [0x00, 0x01, 0x00] } = true := by
  decide

/-! ### Command port, reset, assembler (V-SYS-*, R78, R79) -/

/-- V-SYS-2: 55 is answered alone; the 20 after it stays on the port as a new command. -/
theorem test_step_illegal : nextIs (step (block.receive [0x55, 0x20]))
    { block with cmdPort := [.byte 0x20], respPort := [0xFF] } = true := by decide
/-- R77: an incomplete command is held, and the bytes that complete it later run it. -/
theorem test_step_waits : nextIs (step (block.receive [0x11])) { block with partialCmd := [0x11] } = true := by decide
theorem test_step_completes : nextIs (step ({ block with partialCmd := [0x11] }.receive [0x01]))
    { block with sumReg := 0x56, respPort := [0x00] } = true := by decide
/-- V-SYS-3, V-SYS-4: a reset discards the incomplete FEED and sets the state; a delivered response stays. -/
theorem test_step_reset :
    step { crcReg := 0x60B1, sumReg := 0xF8, ownAddr := 0x02, rxbuf := [0x02, 0x02, 0x01], partialCmd := [0x42, 0x07],
           cmdPort := [.byte 0x00, .byte 0x02, .byte 0x02, .reset, .byte 0x44], respPort := [0x00] } =
      .next { crcReg := 0x0000, sumReg := 0x00, ownAddr := Config.ownAddrReset, rxbuf := [], partialCmd := [],
              cmdPort := [.byte 0x44], respPort := [0x00] } := rfl
/-- R231: a reset behind a whole command comes after it. -/
theorem test_step_command_before_reset : nextIs (step (block.receive [0x43]).receiveReset)
    { block with cmdPort := [.reset], respPort := [0x00, 0x00, 0x00] } = true := by decide
/-- R78's four examples. -/
theorem test_assemble_examples :
    assembleLine "SUM.ADD 0xF5" = some [.sumAdd 0xF5] ∧
    assembleLine "CRC.GEN [02 00 FE]" = some [.crcGen [0x02, 0x00, 0xFE]] ∧
    assembleLine "ENC.CRC 0x02, 0x01, 0xFE, []" = some [.encCrc 0x02 0x01 0xFE []] ∧
    assembleLine "RA.FEED [02 02 01] ; a comment" = some [.raFeed [0x02, 0x02, 0x01]] := by decide +kernel
/-- R78: an `imm8` over 255, a wrong operand form and an unknown mnemonic are refused; decimal is allowed. -/
theorem test_assemble_refuses : assembleLine "SUM.ADD 256" = none ∧ assembleLine "SUM.INIT 1" = none ∧
    assembleLine "NOP" = none ∧ assembleLine "SUM.ADD 255" = some [.sumAdd 0xFF] := by decide +kernel
/-- R79. -/
theorem test_assemble_pseudo :
    assembleLine "CRC.SEQ [02 FE]" = some [.crcInit, .crcUpdate 0x02, .crcUpdate 0xFE, .crcRead] ∧
    assembleLine "RA.PUSH 0x02" = some [.raFeed [0x02]] ∧ assembleLine "RA.RESET" = some [.raFlush] := by decide +kernel
/-- P5: two lines of the program and their bytes. -/
theorem test_assemble_bytes : assemble ["ENC.ADD 0x01, 0x02, 0x00, [41]", "DEC [02 01 01]"] =
    some [0x30, 0x01, 0x02, 0x00, 0x01, 0x41, 0x38, 0x03, 0x00, 0x02, 0x01, 0x01] := by decide +kernel
/-- R74: the lengths a reader computes for a FEED response with one record and for a partial DEC. -/
theorem test_responseLength :
    responseLength (.raFeed fr) [0x00, 0x01, 0x00, 0x02, 0x02, 0x01, 0xFE, 0x00, 0x10, 0x20, 0xFF, 0xFF] = 10 ∧
    responseLength (.dec []) [0x01, 0x00, 0x00, 0xFF] = 3 := by decide

/-! ### Witnesses: concrete values that meet the hypotheses of each obligation that has any, clause by clause -/

/-- SumInitClearsSumReg's second clause; the boundary 65535 and a zero sum for SumGen, SumCheck, CrcGen, CrcCheck,
DecReports, RaFeedReports, RaSetaddr, PseudoInstructions. -/
theorem witness_sum_zero : ({ block with sumReg := 0x00 } : State).sumReg = 0x00 := rfl
theorem witness_sequence_limit : (List.replicate 65535 (0 : Byte)).length ≤ 65535 ∧
    ((List.replicate 65535 (0 : Byte)).map BitVec.toNat).sum % 256 = 0 := by
  rw [List.length_replicate, List.map_replicate, List.sum_replicate]
  decide
theorem witness_checksum_cases : sum8 [0xFF, 0x01] = 0 ∧ sum8 [0x80] ≠ 0 ∧
    sumValid ([0x02, 0x00, 0x01, 0xF5] ++ [0x08]) = true := by decide
/-- CrcValid and CrcCheck: below and at 5 bytes; ExactlyOneCrcPairValidates at an accepting pair. -/
theorem witness_crc_lengths : ([0x02, 0x00, 0xB1, 0xFE] : List Byte).length < 5 ∧ 5 ≤ crcPoll.length ∧
    crcValid crcPoll = true ∧ decodeFrame crcPoll ≠ .partialMessage := by decide +kernel
theorem witness_crc_equal : crc16 ([0x02] ++ [0x00] ++ [0xFE]) = crc16 ([0x02] ++ [0x00] ++ [0xFE]) := rfl
/-- Data at its limits for the frame layouts, ENC.*, the round trips and the corrupted frames. -/
theorem witness_data_limits : ([] : List Byte).length ≤ 255 ∧ (List.replicate 255 (0xAA : Byte)).length = 255 := by
  rw [List.length_replicate]; decide
theorem witness_encAdd_sum_already_zero :
    (((encodeAdd 0x02 0x01 0xFD []).take (([] : List Byte).length + 4)).map BitVec.toNat).sum % 256 = 0 := by decide
theorem witness_overlong : (Instr.dec (List.replicate 65536 0)).wellFormed = false ∧ Instr.raLevel.wellFormed = true := by
  simp only [Instr.wellFormed, seqFits, Config.maxSeq, List.length_replicate]; decide
/-- DecodeChecksInOrder, a buffer for each clause: one byte; one byte short; additive; CRC16; neither. -/
theorem witness_decode_clauses :
    ([0x02] : List Byte).length < 2 ∧
    (2 ≤ [0x02, 0x01, 0x01, 0xFE, 0x00].length ∧ [0x02, 0x01, 0x01, 0xFE, 0x00].length < 6) ∧
    (fr.map BitVec.toNat).sum % 256 = 0 ∧
    ((crcPoll.map BitVec.toNat).sum % 256 ≠ 0 ∧ crcValid crcPoll = true) ∧
    ((badFrame.map BitVec.toNat).sum % 256 ≠ 0 ∧ crcValid badFrame = false) := by decide +kernel
theorem witness_decoded_message : decodeFrame crcPoll = .ok ⟨0x02, 0x00, 0x01, 0xFE, [], .crc16⟩ 5 ∧
    decodeFrame fr = .ok ⟨0x02, 0x02, 0x01, 0xFE, [0x10, 0x20], .additive⟩ 7 := by decide +kernel
theorem witness_len_255 : (0x02 :: 0xFF :: List.replicate 257 0x00 : List Byte).getD 1 0 = 0xFF ∧
    (0x02 :: 0xFF :: List.replicate 257 0x00 : List Byte).length = 259 ∧
    (0x02 :: 0xFF :: List.replicate 258 0x00 : List Byte).length = 260 := by
  simp only [List.length_cons, List.length_replicate]; decide
/-- CrcFramesRoundTrip: a frame that passes the additive test; a CRC16 frame with a nonzero sum and one with sum 0. -/
theorem witness_additive_candidate : 2 ≤ fr.length ∧ fr.length = frameLength (fr.getD 1 0) ∧ sumValid fr = true := by
  decide
theorem witness_crc_frame_sums : sum8 (encodeCrc 0x02 0x09 0xFE []) ≠ 0 ∧ sum8 (encodeCrc 0x02 0x09 0x01 [0x91]) = 0 := by
  decide +kernel
/-- ChangedLastByte: a changed byte of each frame, the one value that sums to 0, and a frame for its last clause. -/
theorem witness_changed_byte :
    some 0x00 ≠ (encodeAdd 0x02 0x01 0xFE []).getLast? ∧
    crcValid ((encodeAdd 0x02 0x01 0xFE []).dropLast ++ [0x00]) = false ∧
    some 0x61 ≠ (encodeCrc 0x02 0x01 0xFE []).getLast? ∧
    sum8 ((encodeCrc 0x02 0x01 0xFE []).dropLast ++ [0x61]) ≠ 0 ∧
    sum8 ((encodeCrc 0x02 0x01 0xFE []).dropLast ++ [0x4F]) = 0 ∧
    (2 ≤ badFrame.length ∧ badFrame.length = (badFrame.getD 1 0).toNat + 5) := by decide +kernel
/-- FeedLoopEnds at its bound. -/
theorem witness_passes : (([] : List Byte).length + fr.length) / 5 ≤ 1 := by decide
/-- FeedChecksumErrorClearsTheBuffer: a good frame, then a failed one, then a tail. -/
theorem witness_feed_error : (fr ++ badFrame ++ crcPoll).length ≤ 65535 ∧
    raFeed block.ownAddr block.rxbuf fr = ⟨[], [⟨0x02, 0x02, 0x01, 0xFE, [0x10, 0x20], .additive⟩], false⟩ ∧
    decodeFrame badFrame = .checksumError badFrame.length := by decide +kernel
/-- StreamingRealisation, NoWholeFrame, RaLevel, ResponsesAreSelfDelimiting: buffers without a whole frame, the longest too. -/
theorem witness_no_whole_frame : holdsNoWholeFrame [0x02, 0x02, 0x01] ∧
    holdsNoWholeFrame (0x02 :: 0xFF :: List.replicate 257 0x00) := by decide +kernel
/-- ChunkBoundaries: chunks without an error and another split of the same bytes; a bad frame before a good one. -/
theorem witness_chunks : (feedChunks 0x02 [] [[0x02, 0x02, 0x01], [0xFE, 0x10, 0x20, 0xCD]]).error = false ∧
    [fr].flatten = [[0x02, 0x02, 0x01], [0xFE, 0x10, 0x20, 0xCD]].flatten ∧
    decodeFrame badFrame = .checksumError badFrame.length ∧
    decodeFrame crcPoll = .ok ⟨0x02, 0x00, 0x01, 0xFE, [], .crc16⟩ crcPoll.length := by decide +kernel
/-- FilterUsesTheAddress: V-RA-12 and V-RA-13. -/
theorem witness_filter : holdsNoWholeFrame (block.rxbuf ++ [0x02, 0x02, 0x01]) ∧
    decodeFrame (block.rxbuf ++ [0x02, 0x02, 0x01] ++ [0xFE, 0x10, 0x20, 0xCD]) =
      .ok ⟨0x02, 0x02, 0x01, 0xFE, [0x10, 0x20], .additive⟩
        (block.rxbuf ++ [0x02, 0x02, 0x01] ++ [0xFE, 0x10, 0x20, 0xCD]).length := by decide +kernel
/-- StepRunsTheDecodedCommand, IllegalOpcodes, IncompleteCommandWaits, ResetSets, ResponsesAreSelfDelimiting: a port for
each. -/
theorem witness_port_command :
    decode ((block.receive [0x44, 0x11]).partialCmd ++ portBytes (block.receive [0x44, 0x11]).cmdPort) =
      .command .raLevel [0x11] := by decide
theorem witness_port_illegal : (block.receive [0x45]).partialCmd ++ portBytes (block.receive [0x45]).cmdPort = 0x45 :: [] ∧
    decode [0x45] = .illegal 0x45 [] := by decide
theorem witness_port_legal : (block.receive [0x44]).partialCmd ++ portBytes (block.receive [0x44]).cmdPort = 0x44 :: [] := by
  decide
theorem witness_port_waits :
    decode ((block.receive [0x42]).partialCmd ++ portBytes (block.receive [0x42]).cmdPort) = .incomplete ∧
    portFromReset (block.receive [0x42]).cmdPort = [] ∧ 2 < (encode (.sumGen [])).length := by decide
theorem witness_port_reset :
    decode ((block.receive [0x42]).receiveReset.partialCmd ++ portBytes (block.receive [0x42]).receiveReset.cmdPort) =
      .incomplete ∧
    portFromReset (block.receive [0x42]).receiveReset.cmdPort = .reset :: [] := by decide
theorem witness_port_command_before_reset :
    decode ((block.receive [0x44]).receiveReset.partialCmd ++ portBytes (block.receive [0x44]).receiveReset.cmdPort) =
      .command .raLevel [] ∧
    portFromReset (block.receive [0x44]).receiveReset.cmdPort = .reset :: [] := by decide
/-- EveryStepKeepsTheInvariant and NoWholeFrame: a state with the invariant, and its next state. -/
theorem witness_invariant : { block with rxbuf := [0x02], partialCmd := [0x42] }.Inv ∧
    nextIs (step (block.receive [0x41])) { block with respPort := [0x00, 0x02] } = true := by decide
/-- ReadOnlyCommands, WhichCommandsWrite, StatusCodes: a read-only command and one that writes, with next states. -/
theorem witness_read_only : mayChangeState .raGetaddr = false ∧
    nextIs (exec .raGetaddr block) { block with respPort := [0x00, 0x02] } = true ∧
    nextIs (exec (.raFeed [0x02]) block) { block with rxbuf := [0x02], respPort := [0x00, 0x00, 0x00] } = true := by
  decide +kernel
/-- CommandsRunInArrivalOrder: two commands on the port, a third behind them. -/
theorem witness_arrival_order : (∀ i ∈ ([.sumAdd 0x01, .raLevel] : List Instr), i.wellFormed = true) ∧
    block.partialCmd = [] ∧
    (block.receive [0x11, 0x01, 0x44, 0x43]).cmdPort =
      (encodeAll [.sumAdd 0x01, .raLevel]).map .byte ++ [.byte 0x43] := by decide
/-- CommandLengthByOperandKind: an opcode of each kind. -/
theorem witness_operand_kinds : operandKind 0x10 = some .none ∧ operandKind 0x11 = some .imm8 ∧
    operandKind 0x13 = some .seq16 ∧ operandKind 0x30 = some .msg := by decide
/-- AssembledLinesCanBeWritten: a line that yields commands; the texts of a number and of a byte list. -/
theorem witness_assembled : assembleLine "RA.LEVEL" = some [.raLevel] := by decide +kernel
theorem witness_operand_texts : numeralTexts 255 = ["255", "0xff", "0xFF"] ∧ numeralTexts 256 = ["256", "0x100", "0x100"] ∧
    hexList Char.toUpper [0x02, 0xFE] = "02 FE" ∧ hexList id [0x02, 0xFE] = "02 fe" := by decide +kernel
/-- StatusCodes: each code on its outcome. -/
theorem witness_status_codes : answers (exec (.dec [0x02]) block) [0x01, 0x00, 0x00] = true ∧
    answers (exec (.dec badFrame) block) [0x02, 0x05, 0x00] = true ∧
    answers (exec (.raFeed badFrame) block) [0x02, 0x00, 0x00] = true ∧
    answers (exec (.dec crcPoll) block) [0x00, 0x05, 0x00, 0x02, 0x00, 0x01, 0xFE, 0x01] = true ∧
    answers (step (block.receive [0x45])) [0xFF] = true := by decide +kernel

end Sys2Proof.Machine.Tests
end

section
/-! PROOFS. The scope family (spec 00): what an Ok of DECODE says about its message (R10), and which command a step
runs (R5). -/

namespace Sys2Proof.Machine

/-! ### Decoded messages -/

section
variable (f : List Byte) (source : Byte) (scheme : ChecksumType)

@[simp] theorem frameMessage_length : (frameMessage f source scheme).length = f.getD 1 0 := rfl
@[simp] theorem frameMessage_source : (frameMessage f source scheme).source = source := rfl
@[simp] theorem frameMessage_checksumType : (frameMessage f source scheme).checksumType = scheme := rfl

/-- The data of a frame's message are the frame without its first four bytes and its last one (R65). -/
@[simp] theorem frameMessage_data_length : (frameMessage f source scheme).data.length = f.length - 5 := by
  simp only [frameMessage, List.length_take, List.length_drop]
  omega

end

/-- Inversion of an Ok of the validation: the whole frame is consumed, and the message's source and tag are those of
the first scheme that accepts it (R147 to R150). -/
theorem validateFrame_ok {f : List Byte} {m : Message} {n : Nat} (h : validateFrame f = .ok m n) :
    n = f.length ∧
      ((sumValid f = true ∧ m = frameMessage f (f.getD 2 0) .additive) ∨
        (sumValid f = false ∧ crcValid f = true ∧ m = frameMessage f hostAddr .crc16)) := by
  unfold validateFrame at h
  split at h
  next hsum =>
    obtain ⟨rfl, rfl⟩ := DecodeResult.ok.inj h
    exact ⟨rfl, .inl ⟨hsum, rfl⟩⟩
  next hsum =>
    split at h
    next hcrc =>
      obtain ⟨rfl, rfl⟩ := DecodeResult.ok.inj h
      exact ⟨rfl, .inr ⟨Bool.eq_false_iff.mpr hsum, hcrc, rfl⟩⟩
    next => cases h

/-- An Ok of DECODE is the validation of a whole candidate frame at the buffer's head (R144 to R146). -/
theorem decodeFrame_ok {buf : List Byte} {m : Message} {n : Nat} (h : decodeFrame buf = .ok m n) :
    n = (buf.getD 1 0).toNat + 5 ∧ n ≤ buf.length ∧ validateFrame (buf.take n) = .ok m n := by
  rcases decodeFrame_cases buf with ⟨-, hpart⟩ | ⟨hwhole, k, hk, hle, ⟨m', hok⟩ | herr⟩
  · cases hpart.symm.trans h
  · obtain ⟨-, rfl⟩ := DecodeResult.ok.inj (hok.symm.trans h)
    exact ⟨hk, hle, by rw [← h, decodeFrame_of_whole hwhole, ← hk]⟩
  · cases herr.symm.trans h

/-- A candidate frame's byte before its end is the buffer's byte at the same position. -/
theorem getD_take_of_lt {buf : List Byte} {i n : Nat} (hi : i < n) : (buf.take n).getD i 0 = buf.getD i 0 := by
  simp only [List.getD_eq_getElem?_getD, List.getElem?_take_of_lt hi]

/-- Settles O26: an Ok consumes the candidate frame of `buf[1] + 5` bytes, and its message is that frame's under the
scheme that accepts it. -/
theorem decodedMessagesAreConsistent : Obligations.DecodedMessagesAreConsistent := by
  intro buf m n h
  obtain ⟨hn, hle, hvalid⟩ := decodeFrame_ok h
  have hframe : (buf.take n).length = n := List.length_take_of_le hle
  have hlen : (buf.take n).getD 1 0 = buf.getD 1 0 := getD_take_of_lt (by omega)
  have hsrc : (buf.take n).getD 2 0 = buf.getD 2 0 := getD_take_of_lt (by omega)
  obtain ⟨-, ⟨-, rfl⟩ | ⟨-, -, rfl⟩⟩ := validateFrame_ok hvalid
  all_goals simp only [frameMessage_length, frameMessage_source, frameMessage_checksumType, frameMessage_data_length,
    hframe, hlen, hsrc]
  · exact ⟨by omega, by omega, hle, nofun, fun _ => trivial⟩
  · exact ⟨by omega, by omega, hle, fun _ => rfl, nofun⟩

/-! ### The command a step runs -/

/-- Where the bytes the block can see decode to a command, a step is that command's meaning once it is off the port. -/
theorem step_of_command {s : State} {i : Instr} {rest : List Byte} (h : decode s.commandBytes = .command i rest) :
    step s = exec i (s.afterCommand rest) := by
  simp only [step, fetch, h]

/-- Settles O42: the statement writes out `commandBytes` and `afterCommand`, so it is `step_of_command`. -/
theorem stepRunsTheDecodedCommand : Obligations.StepRunsTheDecodedCommand :=
  fun _ _ _ h => step_of_command h

end Sys2Proof.Machine
end

section
/-! PROOFS. The state family (spec 10): which commands write which state (R20 to R25, R45), and the invariant that every
step keeps (R27, R77). -/

namespace Sys2Proof.Machine

/-! ### What a command writes -/

/-- Inversion of a command's effect before its response: nothing is written, or one of the four architectural fields is,
by that field's own commands (R23 to R26, R47). -/
theorem effect_cases (i : Instr) (s : State) :
    (effect i s).1 = s ∨
    ((i = .crcInit ∨ ∃ b, i = .crcUpdate b) ∧ ∃ v, (effect i s).1 = s.setCrcReg v) ∨
    ((i = .sumInit ∨ ∃ b, i = .sumAdd b) ∧ ∃ v, (effect i s).1 = s.setSumReg v) ∨
    (∃ a, i = .raSetaddr a ∧ (effect i s).1 = s.setOwnAddr a) ∨
    (∃ chunk, i = .raFeed chunk ∧ (effect i s).1 = s.setRxbuf (raFeed s.ownAddr s.rxbuf chunk).rxbuf) ∨
    (i = .raFlush ∧ (effect i s).1 = s.setRxbuf []) := by
  cases i with
  | crcInit => exact .inr (.inl ⟨.inl rfl, _, rfl⟩)
  | crcUpdate b => exact .inr (.inl ⟨.inr ⟨b, rfl⟩, _, rfl⟩)
  | sumInit => exact .inr (.inr (.inl ⟨.inl rfl, _, rfl⟩))
  | sumAdd b => exact .inr (.inr (.inl ⟨.inr ⟨b, rfl⟩, _, rfl⟩))
  | raSetaddr a => exact .inr (.inr (.inr (.inl ⟨a, rfl, rfl⟩)))
  | raFeed chunk => exact .inr (.inr (.inr (.inr (.inl ⟨chunk, rfl, rfl⟩))))
  | raFlush => exact .inr (.inr (.inr (.inr (.inr ⟨rfl, rfl⟩))))
  | sumRead | sumGen | sumCheck | crcRead | crcGen | crcCheck | encAdd | encCrc | dec | raGetaddr | raLevel =>
    exact .inl rfl

/-- RA_FEED's decode loop only takes bytes off the buffer's head, or clears it (R45, R171). -/
theorem feedLoop_rxbuf_suffix (own : Byte) (passes : Nat) (buf : List Byte) :
    (feedLoop own passes buf).rxbuf <:+ buf := by
  induction passes generalizing buf with
  | zero => exact List.suffix_rfl
  | succ p ih =>
    rcases decodeFrame_cases buf with ⟨h, -⟩ | ⟨-, n, -, -, ⟨m, hm⟩ | hm⟩
    · rw [feedLoop_partial _ h]
    · rw [feedLoop_ok p hm]
      exact (ih (buf.drop n)).trans (List.drop_suffix n buf)
    · rw [feedLoop_error p hm]
      exact List.nil_suffix

/-- RA_FEED keeps an end of the buffer with the chunk appended. -/
theorem raFeed_rxbuf_suffix (own : Byte) (rxbuf chunk : List Byte) :
    (raFeed own rxbuf chunk).rxbuf <:+ rxbuf ++ chunk :=
  feedLoop_rxbuf_suffix own _ (rxbuf ++ chunk)

/-- Settles O51, by the cases of `effect_cases`: the response port aside, the next state differs from `s` in at most the
one field that the command's own case names. -/
theorem whichCommandsWriteWhichState : Obligations.WhichCommandsWriteWhichState := by
  intro i s t h
  obtain ⟨-, rfl⟩ := exec_next h
  rcases effect_cases i s with he | ⟨hi, v, he⟩ | ⟨hi, v, he⟩ | ⟨a, rfl, he⟩ | ⟨chunk, rfl, he⟩ | ⟨rfl, he⟩ <;>
    rw [he]
  · simp
  · simp [hi]
  · simp [hi]
  · simp
  · simp [raFeed_rxbuf_suffix]
  · simp

/-! ### The invariant between commands -/

/-- A buffer without a whole frame has at most 259 bytes: one below the longest frame (R26, R27). -/
theorem length_le_of_holdsNoWholeFrame {buf : List Byte} (h : holdsNoWholeFrame buf) : buf.length ≤ 259 := by
  have hlen : (buf.getD 1 0).toNat < 256 := (buf.getD 1 0).isLt
  rcases h with h | h <;> omega

theorem holdsNoWholeFrame_nil : holdsNoWholeFrame [] := .inl (by decide)

theorem decode_nil : decode [] = .incomplete := rfl

/-- RA_FEED leaves no whole frame, whatever was in the buffer (R171, R172). -/
theorem raFeed_holdsNoWholeFrame (own : Byte) (rxbuf chunk : List Byte) :
    holdsNoWholeFrame (raFeed own rxbuf chunk).rxbuf :=
  feedLoop_rxbuf own _ _ (by omega)

/-- A command keeps RXBUF free of a whole frame: only RA.FEED and RA.FLUSH write it. -/
theorem exec_keeps_noWholeFrame {i : Instr} {s t : State} (h : exec i s = .next t)
    (hs : holdsNoWholeFrame s.rxbuf) : holdsNoWholeFrame t.rxbuf := by
  obtain ⟨-, rfl⟩ := exec_next h
  rw [State.respond_rxbuf]
  rcases effect_cases i s with he | ⟨-, v, he⟩ | ⟨-, v, he⟩ | ⟨a, -, he⟩ | ⟨chunk, -, he⟩ | ⟨-, he⟩ <;> rw [he]
  iterate 4 · exact hs
  · exact raFeed_holdsNoWholeFrame ..
  · exact holdsNoWholeFrame_nil

/-- No command touches the latch (R77): a part of O51's frame. -/
theorem exec_partialCmd {i : Instr} {s t : State} (h : exec i s = .next t) : t.partialCmd = s.partialCmd := by
  obtain ⟨-, -, -, -, hlatch, -⟩ := whichCommandsWriteWhichState i s t h
  exact hlatch

/-- RXBUF's half of the invariant is kept by a step: a command keeps it, a reset empties RXBUF, and the other two steps
leave it alone. -/
theorem step_keeps_noWholeFrame {s t : State} (h : step s = .next t) (hs : holdsNoWholeFrame s.rxbuf) :
    holdsNoWholeFrame t.rxbuf := by
  rcases step_cases s with ⟨i, rest, -, hstep⟩ | ⟨op, rest, -, hstep⟩ | ⟨later, -, -, hstep⟩ | ⟨-, -, hstep⟩ <;>
    rw [hstep] at h
  · exact exec_keeps_noWholeFrame h hs
  all_goals obtain rfl := Host.Outcome.next.inj h
  · exact hs
  · exact holdsNoWholeFrame_nil
  · exact hs

/-- The latch's half of the invariant holds after any step (R77): a command, an illegal opcode and a reset empty the
latch, and a waiting block holds bytes that decode to no command yet. -/
theorem step_latch_incomplete {s t : State} (h : step s = .next t) : decode t.partialCmd = .incomplete := by
  rcases step_cases s with ⟨i, rest, -, hstep⟩ | ⟨op, rest, -, hstep⟩ | ⟨later, -, -, hstep⟩ | ⟨hwait, -, hstep⟩ <;>
    rw [hstep] at h
  · rw [exec_partialCmd h]
    exact decode_nil
  all_goals obtain rfl := Host.Outcome.next.inj h
  · exact decode_nil
  · exact decode_nil
  · exact hwait

/-- Settles O48: the latch by `step_latch_incomplete`, RXBUF by `step_keeps_noWholeFrame`. -/
theorem everyStepKeepsTheInvariant : Obligations.EveryStepKeepsTheInvariant :=
  fun _ _ h => ⟨step_latch_incomplete h, fun ⟨hbuf, _⟩ => ⟨step_keeps_noWholeFrame h hbuf, step_latch_incomplete h⟩⟩

/-- Settles O46: RXBUF's half of the invariant, and the bound it puts on the level. -/
theorem noWholeFrameBetweenCommands : Obligations.NoWholeFrameBetweenCommands :=
  ⟨holdsNoWholeFrame_nil, fun _ hs => ⟨length_le_of_holdsNoWholeFrame hs, fun _ h => step_keeps_noWholeFrame h hs⟩⟩

end Sys2Proof.Machine
end

section
/-! PROOFS. The memory family (spec 20): commands that only answer (R47), and the order in which the commands on the port
run (R48). -/

namespace Sys2Proof.Machine

/-! ### What a command does not read -/

/-- No command reads the response port: a response already delivered changes neither what it does nor its answer. -/
theorem effect_respond (i : Instr) (s : State) (bytes : List Byte) :
    effect i (s.respond bytes) = ((effect i s).1.respond bytes, (effect i s).2) := by
  cases i <;> rfl

/-- No command reads the latch or the command port: each command sees nothing of later ones (R48). -/
theorem effect_setPort (i : Instr) (s : State) (held : List Byte) (events : List PortEvent) :
    effect i (s.setPort held events) = ((effect i s).1.setPort held events, (effect i s).2) := by
  cases i <;> rfl

/-! ### Commands that only answer -/

/-- A command outside R47's list writes nothing before its response: each writing case of `effect_cases` is one of that
list. -/
theorem effect_of_readOnly {i : Instr} (s : State) (hi : mayChangeState i = false) : (effect i s).1 = s := by
  rcases effect_cases i s with he | ⟨rfl | ⟨b, rfl⟩, -⟩ | ⟨rfl | ⟨b, rfl⟩, -⟩ | ⟨a, rfl, -⟩ | ⟨chunk, rfl, -⟩ | ⟨rfl, -⟩
  · exact he
  all_goals cases hi

/-- Settles O50: the first run leaves `s` with its response added, and the second run reads the same fields, so it
answers the same. -/
theorem readOnlyCommandsAreIdempotent : Obligations.ReadOnlyCommandsAreIdempotent := by
  intro i s t hi h
  obtain ⟨hw, rfl⟩ := exec_next h
  refine ⟨(effect i s).2, by rw [effect_of_readOnly s hi]; rfl, ?_⟩
  rw [exec_of_wellFormed i _ hw, effect_respond, effect_of_readOnly s hi, effect_of_readOnly _ hi]
  rfl

/-! ### Commands in arrival order -/

/-- A command that can be written is decoded from its own bytes, and what follows them is left (R70, R72): its opcode
selects the taker that reads its operand back. -/
theorem decode_encode_append {i : Instr} (rest : List Byte) (h : i.wellFormed = true) :
    decode (encode i ++ rest) = .command i rest := by
  cases i with
  | sumInit | sumRead | crcInit | crcRead | raGetaddr | raFlush | raLevel => rfl
  | sumAdd | crcUpdate | raSetaddr => rfl
  | sumGen seq | sumCheck seq | crcGen seq | crcCheck seq | dec seq | raFeed seq =>
    exact takeSeq16_seq16Bytes _ seq rest (seqFits_iff.mp h)
  | encAdd dest src header data | encCrc dest src header data =>
    exact takeMsg_msgBytes _ dest src header data rest (dataFits_iff.mp h)

/-- With a command's bytes at the port's front, a step is that command, with the port it leaves behind. -/
theorem step_encode {i : Instr} (s : State) (events : List PortEvent) (h : i.wellFormed = true) :
    step (s.setPort [] ((encode i).map .byte ++ events)) = exec i (s.setPort [] events) := by
  have hbytes : (s.setPort [] ((encode i).map .byte ++ events)).commandBytes = encode i ++ portBytes events :=
    portBytes_map_append _ _
  have hdecode := decode_encode_append (portBytes events) h
  have hport : (s.setPort [] ((encode i).map .byte ++ events)).afterCommand (portBytes events) = s.setPort [] events := by
    simp only [State.afterCommand, State.setPort_cmdPort, portFromReset_map_append, port_split]
    rfl
  rw [step_of_command (hbytes ▸ hdecode), hport]

/-- A command that can be written leaves whatever stands on its port as it is. -/
theorem exec_setPort {i : Instr} (s : State) (held : List Byte) (events : List PortEvent) (h : i.wellFormed = true) :
    exec i (s.setPort held events) = .next (((effect i s).1.respond (effect i s).2).setPort held events) := by
  rw [exec_of_wellFormed i _ h, effect_setPort]
  rfl

/-- A stream of commands at the port's front is run in as many steps, in order. -/
theorem run_encodeAll (is : List Instr) (events : List PortEvent) (s : State)
    (h : ∀ i ∈ is, i.wellFormed = true) :
    Host.Core.run Sys2Proof.core is.length (s.setPort [] ((encodeAll is).map .byte ++ events)) =
      execAll is (s.setPort [] events) := by
  induction is generalizing s with
  | nil => rfl
  | cons i is ih =>
    obtain ⟨hi, his⟩ := List.forall_mem_cons.mp h
    have hstep : Sys2Proof.core.step (s.setPort [] ((encodeAll (i :: is)).map .byte ++ events)) =
        .next (((effect i s).1.respond (effect i s).2).setPort [] ((encodeAll is).map .byte ++ events)) := by
      rw [encodeAll, List.flatMap_cons, List.map_append, List.append_assoc]
      exact (step_encode s _ hi).trans (exec_setPort s [] _ hi)
    simp only [List.length_cons, Host.Core.run, hstep, execAll, exec_setPort s [] events hi]
    exact ih _ his

/-- Settles O54: with an empty latch the two states of the statement are `s` with its port set, as in
`run_encodeAll`. -/
theorem commandsRunInArrivalOrder : Obligations.CommandsRunInArrivalOrder := by
  intro is events s h hlatch hport
  have hs : s = s.setPort [] ((encodeAll is).map .byte ++ events) := by rw [← hlatch, ← hport]; rfl
  have ht : { s with cmdPort := events } = s.setPort [] events := by rw [← hlatch]; rfl
  rw [ht, ← run_encodeAll is events s h, ← hs]

end Sys2Proof.Machine
end

section
/-! PROOFS. The encoding family (spec 30): the frame's bytes (R60), the command port's encoding (R70 to R73, R77), the
responses (R74, R75), and the assembler (R78, R79). -/

namespace Sys2Proof.Machine

/-! ### Commands and their bytes (R70 to R72) -/

/-- Settles O55: each opcode selects the taker that reads its own operand back. -/
theorem decodeOfEncodeIsTheCommand : Obligations.DecodeOfEncodeIsTheCommand :=
  fun _ rest h => decode_encode_append rest h

/-- The opcode map by operand layout: how an opcode reads the bytes `bs` after it, and the encoding of the commands that
it reads (R70, R72, R73). -/
inductive OpcodeReads (op : Byte) (bs : List Byte) : Prop where
  | noOperand (i : Instr) (kind : operandKind op = some .none) (enc : i.wellFormed = true ∧ encode i = [op])
      (dec : decode (op :: bs) = .command i bs)
  | imm8 (mk : Byte → Instr) (kind : operandKind op = some .imm8)
      (enc : ∀ b, (mk b).wellFormed = true ∧ encode (mk b) = [op, b]) (dec : decode (op :: bs) = takeImm8 mk bs)
  | seq16 (mk : List Byte → Instr) (kind : operandKind op = some .seq16)
      (enc : ∀ seq, (mk seq).wellFormed = seqFits seq ∧ encode (mk seq) = op :: seq16Bytes seq)
      (dec : decode (op :: bs) = takeSeq16 mk bs)
  | msg (mk : Byte → Byte → Byte → List Byte → Instr) (kind : operandKind op = some .msg)
      (enc : ∀ d s h data,
        (mk d s h data).wellFormed = dataFits data ∧ encode (mk d s h data) = op :: msgBytes d s h data)
      (dec : decode (op :: bs) = takeMsg mk bs)
  | illegal (kind : operandKind op = none) (dec : decode (op :: bs) = .illegal op bs)

/-- Every opcode reads in one of the five ways: the 18 rows of the map, and the bytes outside it. -/
theorem opcodeReads (op : Byte) (bs : List Byte) : OpcodeReads op bs := by
  have hval {n : Nat} (h : op.toNat = n) : op = BitVec.ofNat 8 n := by
    rw [← h, BitVec.ofNat_toNat, BitVec.setWidth_eq]
  rcases decode_cases op bs with ⟨h, hd⟩ | ⟨h, hd⟩ | ⟨h, hd⟩ | ⟨h, hd⟩ | ⟨h, hd⟩ | ⟨h, hd⟩ | ⟨h, hd⟩ | ⟨h, hd⟩ |
    ⟨h, hd⟩ | ⟨h, hd⟩ | ⟨h, hd⟩ | ⟨h, hd⟩ | ⟨h, hd⟩ | ⟨h, hd⟩ | ⟨h, hd⟩ | ⟨h, hd⟩ | ⟨h, hd⟩ | ⟨h, hd⟩ | ⟨hd, hk, -⟩
  on_goal 19 => exact .illegal hk hd
  all_goals obtain rfl := hval h
  · exact .noOperand .sumInit rfl ⟨rfl, rfl⟩ hd
  · exact .imm8 .sumAdd rfl (fun _ => ⟨rfl, rfl⟩) hd
  · exact .noOperand .sumRead rfl ⟨rfl, rfl⟩ hd
  · exact .seq16 .sumGen rfl (fun _ => ⟨rfl, rfl⟩) hd
  · exact .seq16 .sumCheck rfl (fun _ => ⟨rfl, rfl⟩) hd
  · exact .noOperand .crcInit rfl ⟨rfl, rfl⟩ hd
  · exact .imm8 .crcUpdate rfl (fun _ => ⟨rfl, rfl⟩) hd
  · exact .noOperand .crcRead rfl ⟨rfl, rfl⟩ hd
  · exact .seq16 .crcGen rfl (fun _ => ⟨rfl, rfl⟩) hd
  · exact .seq16 .crcCheck rfl (fun _ => ⟨rfl, rfl⟩) hd
  · exact .msg .encAdd rfl (fun _ _ _ _ => ⟨rfl, rfl⟩) hd
  · exact .msg .encCrc rfl (fun _ _ _ _ => ⟨rfl, rfl⟩) hd
  · exact .seq16 .dec rfl (fun _ => ⟨rfl, rfl⟩) hd
  · exact .imm8 .raSetaddr rfl (fun _ => ⟨rfl, rfl⟩) hd
  · exact .noOperand .raGetaddr rfl ⟨rfl, rfl⟩ hd
  · exact .seq16 .raFeed rfl (fun _ => ⟨rfl, rfl⟩) hd
  · exact .noOperand .raFlush rfl ⟨rfl, rfl⟩ hd
  · exact .noOperand .raLevel rfl ⟨rfl, rfl⟩ hd

/-- Inversion of `decode`: the bytes of a decoded command are its encoding, each taker having taken exactly its
operand's bytes. -/
theorem decode_command {bytes rest : List Byte} {i : Instr} (h : decode bytes = .command i rest) :
    i.wellFormed = true ∧ bytes = encode i ++ rest := by
  cases bytes with
  | nil => cases h
  | cons op bs =>
    cases opcodeReads op bs with
    | noOperand j _ enc dec =>
      obtain ⟨rfl, rfl⟩ := Decoded.command.inj (dec.symm.trans h)
      exact ⟨enc.1, by rw [enc.2]; rfl⟩
    | imm8 mk _ enc dec =>
      obtain ⟨b, rfl, rfl⟩ := takeImm8_command (dec.symm.trans h)
      exact ⟨(enc b).1, by rw [(enc b).2]; rfl⟩
    | seq16 mk _ enc dec =>
      obtain ⟨seq, rfl, hlen, rfl⟩ := takeSeq16_command (dec.symm.trans h)
      exact ⟨(enc seq).1.trans (seqFits_iff.mpr hlen), by rw [(enc seq).2]; rfl⟩
    | msg mk _ enc dec =>
      obtain ⟨d, s, hd, data, rfl, hlen, rfl⟩ := takeMsg_command (dec.symm.trans h)
      exact ⟨(enc d s hd data).1.trans (dataFits_iff.mpr hlen), by rw [(enc d s hd data).2]; rfl⟩
    | illegal _ dec => cases dec.symm.trans h

/-- Settles O56: it is `decode_command`. -/
theorem decodedBytesAreTheEncoding : Obligations.DecodedBytesAreTheEncoding :=
  fun _ _ _ h => decode_command h

/-- Settles O58: one evaluation of the decoder for each word. -/
theorem encodedWordsDecodeToTheirCommands : Obligations.EncodedWordsDecodeToTheirCommands :=
  ⟨rfl, rfl, rfl, rfl, rfl, rfl, rfl⟩

/-! ### Illegal opcodes (R73) -/

theorem takeImm8_ne_illegal {mk : Byte → Instr} {bs rest : List Byte} {op : Byte} :
    takeImm8 mk bs ≠ .illegal op rest := by
  cases bs <;> nofun

theorem takeSeq16_ne_illegal {mk : List Byte → Instr} {bs rest : List Byte} {op : Byte} :
    takeSeq16 mk bs ≠ .illegal op rest := by
  unfold takeSeq16
  split
  · split <;> nofun
  · nofun

theorem takeMsg_ne_illegal {mk : Byte → Byte → Byte → List Byte → Instr} {bs rest : List Byte} {op : Byte} :
    takeMsg mk bs ≠ .illegal op rest := by
  unfold takeMsg
  split
  · split <;> nofun
  · nofun

/-- A byte outside the opcode map is taken alone, whatever follows it. -/
theorem decode_of_no_operandKind {op : Byte} (h : operandKind op = none) (bs : List Byte) :
    decode (op :: bs) = .illegal op bs := by
  cases opcodeReads op bs with
  | illegal _ dec => exact dec
  | noOperand _ kind _ _ | imm8 _ kind _ _ | seq16 _ kind _ _ | msg _ kind _ _ => cases kind.symm.trans h

/-- Inversion of an illegal outcome: the first byte is outside the opcode map, and it alone is taken. -/
theorem decode_illegal {bytes rest : List Byte} {op : Byte} (h : decode bytes = .illegal op rest) :
    bytes = op :: rest ∧ operandKind op = none := by
  cases bytes with
  | nil => cases h
  | cons b bs =>
    cases opcodeReads b bs with
    | noOperand _ _ _ dec => cases dec.symm.trans h
    | imm8 _ _ _ dec => exact absurd (dec.symm.trans h) takeImm8_ne_illegal
    | seq16 _ _ _ dec => exact absurd (dec.symm.trans h) takeSeq16_ne_illegal
    | msg _ _ _ dec => exact absurd (dec.symm.trans h) takeMsg_ne_illegal
    | illegal kind dec =>
      obtain ⟨rfl, rfl⟩ := Decoded.illegal.inj (dec.symm.trans h)
      exact ⟨rfl, kind⟩

/-- The bytes outside the opcode map are R73's six ranges. -/
theorem operandKind_eq_none_iff (op : Byte) :
    operandKind op = none ↔
      (op.toNat ≤ 0x0F ∨ (0x15 ≤ op.toNat ∧ op.toNat ≤ 0x1F) ∨ (0x25 ≤ op.toNat ∧ op.toNat ≤ 0x2F) ∨
        (0x32 ≤ op.toNat ∧ op.toNat ≤ 0x37) ∨ (0x39 ≤ op.toNat ∧ op.toNat ≤ 0x3F) ∨ 0x45 ≤ op.toNat) := by
  unfold operandKind
  split
  iterate 18 · exact iff_of_false nofun (by omega)
  · refine iff_of_true rfl ?_
    simp only [imp_false] at *
    omega

/-- Settles O43: R73's ranges are the bytes outside the opcode map, which are exactly those taken as illegal. -/
theorem illegalOpcodesAnswerFF : Obligations.IllegalOpcodesAnswerFF := by
  intro s op rest hport
  refine ⟨fun hrange => ?_, fun hrange op' rest' h => ?_⟩
  · have hkind := (operandKind_eq_none_iff op).mpr hrange
    exact step_of_illegal (s := s) (hport ▸ decode_of_no_operandKind hkind rest)
  · obtain ⟨hhead, hkind⟩ := decode_illegal h
    obtain ⟨rfl, -⟩ := List.cons.inj hhead
    exact hrange ((operandKind_eq_none_iff op).mp hkind)

/-! ### Command lengths (R71) -/

section
variable {op : Byte}

theorem commandLength_noOperand (h : operandKind op = some .none) (bs : List Byte) : commandLength (op :: bs) = 1 := by
  simp only [commandLength, List.getD_cons_zero, h]

theorem commandLength_imm8 (h : operandKind op = some .imm8) (bs : List Byte) : commandLength (op :: bs) = 2 := by
  simp only [commandLength, List.getD_cons_zero, h]

theorem commandLength_seq16 (h : operandKind op = some .seq16) (b0 b1 : Byte) (bs : List Byte) :
    commandLength (op :: b0 :: b1 :: bs) = 3 + count16 b0 b1 := by
  simp only [commandLength, List.getD_cons_zero, List.getD_cons_succ, h]

theorem commandLength_msg (h : operandKind op = some .msg) (b0 b1 b2 len : Byte) (bs : List Byte) :
    commandLength (op :: b0 :: b1 :: b2 :: len :: bs) = 5 + len.toNat := by
  simp only [commandLength, List.getD_cons_zero, List.getD_cons_succ, h]

end

/-- What decodes is as long as its opcode and its count bytes say. -/
theorem length_of_decode_command {bytes rest : List Byte} {i : Instr} (h : decode bytes = .command i rest) :
    bytes.length = commandLength bytes + rest.length := by
  cases bytes with
  | nil => cases h
  | cons op bs =>
    cases opcodeReads op bs with
    | noOperand j kind _ dec =>
      obtain ⟨-, rfl⟩ := Decoded.command.inj (dec.symm.trans h)
      rw [commandLength_noOperand kind, List.length_cons]
      omega
    | imm8 mk kind _ dec =>
      obtain ⟨b, -, rfl⟩ := takeImm8_command (dec.symm.trans h)
      rw [commandLength_imm8 kind, List.length_cons, List.length_cons]
      omega
    | seq16 mk kind _ dec =>
      obtain ⟨seq, -, hlen, rfl⟩ := takeSeq16_command (dec.symm.trans h)
      simp only [seq16Bytes, List.cons_append, commandLength_seq16 kind, count16_lo16_hi16 _ hlen, List.length_cons,
        List.length_append]
      omega
    | msg mk kind _ dec =>
      obtain ⟨d, s, hd, data, -, hlen, rfl⟩ := takeMsg_command (dec.symm.trans h)
      simp only [msgBytes, List.cons_append, commandLength_msg kind, lo16_toNat, List.length_cons, List.length_append]
      omega
    | illegal _ dec => cases dec.symm.trans h

/-- Settles O57: the length of what decodes, and the rule's formula for each operand layout. -/
theorem commandLengthByOperandKind : Obligations.CommandLengthByOperandKind :=
  ⟨fun _ _ _ h => length_of_decode_command h, fun _ _ _ _ _ rest =>
    ⟨fun h => commandLength_noOperand h rest, fun h => commandLength_imm8 h rest,
      fun h => commandLength_seq16 h _ _ rest, fun h => commandLength_msg h _ _ _ _ rest⟩⟩

/-! ### Steps and incomplete commands (R77, R231) -/

/-- A command's bytes without the last ones are incomplete: a command or an illegal byte read at the head of them would
be read at the head of the whole encoding as well (R70, R77). -/
theorem decode_take_encode {i : Instr} {k : Nat} (hi : i.wellFormed = true) (hk : k < (encode i).length) :
    decode ((encode i).take k) = .incomplete := by
  have hwhole : decode ((encode i).take k ++ (encode i).drop k) = .command i [] := by
    rw [List.take_append_drop, ← List.append_nil (encode i), decode_encode_append [] hi]
  cases hd : decode ((encode i).take k) with
  | incomplete => rfl
  | command j rest =>
    obtain ⟨hj, hpart⟩ := decode_command hd
    rw [hpart, List.append_assoc, decode_encode_append _ hj] at hwhole
    have hdrop := List.append_eq_nil_iff.mp (Decoded.command.inj hwhole).2
    have := List.drop_eq_nil_iff.mp hdrop.2
    omega
  | illegal op rest =>
    obtain ⟨hpart, hkind⟩ := decode_illegal hd
    rw [hpart, List.cons_append, decode_of_no_operandKind hkind] at hwhole
    cases hwhole

theorem portBytes_portFromReset (events : List PortEvent) : portBytes (portFromReset events) = [] := by
  rcases portFromReset_cases events with h | ⟨later, h⟩ <;> rw [h] <;> rfl

theorem portFromReset_portFromReset (events : List PortEvent) :
    portFromReset (portFromReset events) = portFromReset events := by
  rcases portFromReset_cases events with h | ⟨later, h⟩ <;> rw [h] <;> rfl

theorem portBytes_map (bytes : List Byte) : portBytes (bytes.map .byte) = bytes := by
  simpa [portBytes] using portBytes_map_append bytes []

theorem portFromReset_map (bytes : List Byte) : portFromReset (bytes.map .byte) = [] := by
  simpa [portFromReset] using portFromReset_map_append bytes []

/-- A step sees no difference between bytes in the latch and bytes on the port before a reset. -/
theorem step_gather (s : State) : step (s.setPort s.commandBytes (portFromReset s.cmdPort)) = step s := by
  have hbytes : (s.setPort s.commandBytes (portFromReset s.cmdPort)).commandBytes = s.commandBytes := by
    rw [State.commandBytes, State.setPort_partialCmd, State.setPort_cmdPort, portBytes_portFromReset, List.append_nil]
  simp only [step, fetch, hbytes, State.afterCommand, State.setPort_cmdPort, portFromReset_portFromReset]
  rfl

/-- Later bytes are taken as if they had come with the ones that the block holds already (R77). -/
theorem step_of_held_then_later (s : State) (later : List Byte) (hp : portFromReset s.cmdPort = []) :
    step (s.setPort s.commandBytes (later.map .byte)) = step (s.receive later) := by
  have hport : (s.receive later).cmdPort = (portBytes s.cmdPort ++ later).map .byte := by
    rw [State.receive_cmdPort, List.map_append, ← port_split s.cmdPort, hp, List.append_nil, portBytes_map]
  rw [← step_gather, ← step_gather (s.receive later)]
  simp only [State.commandBytes, State.setPort_partialCmd, State.setPort_cmdPort, State.receive_partialCmd, hport,
    portBytes_map, portFromReset_map, List.append_assoc]
  rfl

/-- Settles O44: a part of a command decodes to nothing yet; the block waits with the bytes gathered in its latch, or
takes the reset behind them. -/
theorem incompleteCommandWaits : Obligations.IncompleteCommandWaits := by
  refine ⟨fun i k hi hk => decode_take_encode hi hk, fun s hd => ⟨fun hp => ?_, fun later hp => ?_⟩⟩
  · exact ⟨step_of_wait hd hp, fun later => step_of_held_then_later s later hp⟩
  · exact ⟨_, step_of_reset hd hp, rfl, rfl, rfl⟩

/-- Settles O49: what decodes can be written, so its command answers a next state; the other steps are next states. -/
theorem everyStepAnswersANextState : Obligations.EveryStepAnswersANextState := by
  intro s
  rcases step_cases s with ⟨i, rest, hd, hstep⟩ | ⟨op, rest, -, hstep⟩ | ⟨later, -, -, hstep⟩ | ⟨-, -, hstep⟩
  · exact ⟨_, hstep.trans (exec_of_wellFormed i _ (decode_command hd).1)⟩
  · exact ⟨_, hstep⟩
  · exact ⟨_, hstep⟩
  · exact ⟨_, hstep⟩

/-- Settles O47: a reset empties RXBUF and the latch. -/
theorem resetMeetsTheInvariant : Obligations.ResetMeetsTheInvariant :=
  ⟨⟨holdsNoWholeFrame_nil, decode_nil⟩, fun _ => ⟨holdsNoWholeFrame_nil, decode_nil⟩⟩

/-! ### The additive frame (R60, R62, R140) -/

theorem lengthByte_toNat {data : List Byte} (h : data.length ≤ 255) : (lengthByte data).toNat = data.length := by
  rw [lengthByte, BitVec.toNat_ofNat]
  omega

/-- The additive frame, byte by byte. -/
theorem encodeAdd_eq_cons (dest src header : Byte) (data : List Byte) :
    encodeAdd dest src header data =
      dest :: lengthByte data :: src :: header ::
        (data ++ [checksum (dest :: lengthByte data :: src :: header :: data)]) := rfl

/-- A sequence followed by its checksum sums to 0 (R101, R103). -/
theorem sum8_append_checksum (seq : List Byte) : sum8 (seq ++ [checksum seq]) = 0 := by
  rw [sum8_append, sum8_single, checksum, checksumOf_eq_neg, BitVec.add_right_neg]
  rfl

theorem sum8_encodeAdd (dest src header : Byte) (data : List Byte) : sum8 (encodeAdd dest src header data) = 0 :=
  sum8_append_checksum _

/-- `len + 5` at full width (R62). -/
theorem frameLength_bounds (len : Byte) : 5 ≤ frameLength len ∧ frameLength len ≤ 260 := by
  have hlen : len.toNat < 256 := len.isLt
  unfold frameLength
  omega

/-- Settles O18: the positions are those of `encodeAdd_eq_cons`, and the sum is `sum8_encodeAdd`. -/
theorem additiveFrameLayout : Obligations.AdditiveFrameLayout := by
  intro dest src header data hdata
  have hlen := lengthByte_toNat hdata
  refine ⟨?_, ?_, fun len => ⟨rfl, frameLength_bounds len⟩, rfl, hlen, rfl, rfl, ?_, ?_,
    sum8_encodeAdd dest src header data⟩ <;> rw [encodeAdd_eq_cons]
  · simp
  · simp [frameLength, hlen]
  · simp
  · simp

/-! ### Responses (R74, R75) -/

/-- No command takes back a response already delivered (R48): its effect before its own response leaves the port. -/
theorem effect_respPort (i : Instr) (s : State) : (effect i s).1.respPort = s.respPort := by
  cases i <;> rfl

/-- A command's response follows all earlier ones. -/
theorem exec_respPort {i : Instr} {s t : State} (h : exec i s = .next t) :
    t.respPort = s.respPort ++ (effect i s).2 := by
  obtain ⟨-, rfl⟩ := exec_next h
  rw [State.respond_respPort, effect_respPort]

/-- Only DEC and RA.FEED can report an error: every other command's response begins with OK. -/
theorem effect_response_cases (i : Instr) (s : State) :
    (∃ seq, i = .dec seq) ∨ (∃ chunk, i = .raFeed chunk) ∨
    ((∀ seq, i ≠ .dec seq) ∧ (∀ chunk, i ≠ .raFeed chunk) ∧ ∃ fields, (effect i s).2 = 0x00 :: fields) := by
  cases i with
  | dec seq => exact .inl ⟨seq, rfl⟩
  | raFeed chunk => exact .inr (.inl ⟨chunk, rfl⟩)
  | sumInit | sumAdd | sumRead | sumGen | sumCheck | crcInit | crcUpdate | crcRead | crcGen | crcCheck | encAdd | encCrc
  | raSetaddr | raGetaddr | raFlush | raLevel => exact .inr (.inr ⟨nofun, nofun, _, rfl⟩)

/-- The status byte says which outcome the command had (R75). -/
def ReportsStatus (i : Instr) (s : State) (status : Byte) : Prop :=
  (status = 0x01 ↔ ∃ seq, i = .dec seq ∧ decodeFrame seq = .partialMessage) ∧
  (status = 0x02 ↔
    (∃ seq n, i = .dec seq ∧ decodeFrame seq = .checksumError n) ∨
      ∃ chunk, i = .raFeed chunk ∧ (raFeed s.ownAddr s.rxbuf chunk).error = true) ∧
  (status = 0x00 ↔
    ¬(∃ seq, i = .dec seq ∧ (decodeFrame seq = .partialMessage ∨ ∃ n, decodeFrame seq = .checksumError n)) ∧
      ¬∃ chunk, i = .raFeed chunk ∧ (raFeed s.ownAddr s.rxbuf chunk).error = true) ∧
  (status = 0x00 ∨ status = 0x01 ∨ status = 0x02)

/-- Every command's response begins with the status of its outcome: DEC's by the outcome of DECODE, RA.FEED's by its
error indication, any other command's is OK. -/
theorem effect_reportsStatus (i : Instr) (s : State) :
    ∃ status fields, (effect i s).2 = status :: fields ∧ ReportsStatus i s status := by
  rcases effect_response_cases i s with ⟨seq, rfl⟩ | ⟨chunk, rfl⟩ | ⟨hdec, hfeed, fields, hresp⟩
  · have hresp : (effect (.dec seq) s).2 = decodeResponse (decodeFrame seq) := rfl
    cases hd : decodeFrame seq with
    | partialMessage => exact ⟨0x01, word16 0, by rw [hresp, hd]; rfl, by simp [ReportsStatus, hd]⟩
    | checksumError n => exact ⟨0x02, word16 n, by rw [hresp, hd]; rfl, by simp [ReportsStatus, hd]⟩
    | ok m n => exact ⟨0x00, word16 n ++ messageRecord m, by rw [hresp, hd]; rfl, by simp [ReportsStatus, hd]⟩
  · have hresp : (effect (.raFeed chunk) s).2 = feedResponse (raFeed s.ownAddr s.rxbuf chunk) := rfl
    cases he : (raFeed s.ownAddr s.rxbuf chunk).error
    · exact ⟨0x00, feedFields _, by rw [hresp, feedResponse, he]; rfl, by simp [ReportsStatus, he]⟩
    · exact ⟨0x02, feedFields _, by rw [hresp, feedResponse, he]; rfl, by simp [ReportsStatus, he]⟩
  · exact ⟨0x00, fields, hresp, by simp [ReportsStatus, hdec, hfeed]⟩

/-- The response that a step adds to the port: a whole command's begins with OK, PartialMessage or ChecksumError, an
illegal opcode's is FF alone, and an incomplete command has none. -/
theorem step_response_cases {s t : State} (h : step s = .next t) :
    (∃ i rest status fields, decode s.commandBytes = .command i rest ∧ t.respPort = s.respPort ++ status :: fields ∧
      (status = 0x00 ∨ status = 0x01 ∨ status = 0x02)) ∨
    (∃ op rest, decode s.commandBytes = .illegal op rest ∧ t.respPort = s.respPort ++ [0xFF]) ∨
    (decode s.commandBytes = .incomplete ∧ t.respPort = s.respPort) := by
  rcases step_cases s with ⟨i, rest, hd, hstep⟩ | ⟨op, rest, hd, hstep⟩ | ⟨later, hd, -, hstep⟩ | ⟨hd, -, hstep⟩ <;>
    rw [hstep] at h
  · obtain ⟨status, fields, hresp, -, -, -, hcode⟩ := effect_reportsStatus i (s.afterCommand rest)
    exact .inl ⟨i, rest, status, fields, hd, hresp ▸ exec_respPort h, hcode⟩
  all_goals obtain rfl := Host.Outcome.next.inj h
  · exact .inr (.inl ⟨op, rest, hd, rfl⟩)
  · exact .inr (.inr ⟨hd, rfl⟩)
  · exact .inr (.inr ⟨hd, rfl⟩)

/-- Settles O52: a command's status by `effect_reportsStatus`, and the port's by `step_response_cases`. -/
theorem statusCodesAndTheirProducers : Obligations.StatusCodesAndTheirProducers := by
  refine ⟨fun i s t h => ?_, fun s t h => ?_⟩
  · obtain ⟨status, fields, hresp, hstatus⟩ := effect_reportsStatus i s
    exact ⟨status, fields, hresp ▸ exec_respPort h, hstatus⟩
  · change ((∃ fields, _) ↔ ∃ op rest, decode s.commandBytes = _) ∧ (∀ op rest, decode s.commandBytes = _ → _) ∧
      (∀ i rest, decode s.commandBytes = _ → _) ∧ (decode s.commandBytes = _ → _)
    rcases step_response_cases h with
      ⟨i, rest, status, fields, hd, hresp, hcode⟩ | ⟨op, rest, hd, hresp⟩ | ⟨hd, hresp⟩ <;> rw [hd, hresp]
    · have hne : status ≠ 0xFF := by rcases hcode with rfl | rfl | rfl <;> decide
      simpa using And.intro hne hcode
    · simp
    · simp

/-! ### Response lengths (R74, R76) -/

theorem messageRecord_length (m : Message) : (messageRecord m).length = 5 + m.data.length := by
  simp only [messageRecord, List.length_append, List.length_cons, List.length_nil]

/-- A message's length field counts its data bytes, as it does in what DECODE answers (R65). -/
abbrev Message.Counted (m : Message) : Prop := m.length.toNat = m.data.length

/-- A reader of counted records finds their end, whatever follows them. -/
theorem recordsLength_records {messages : List Message} (h : ∀ m ∈ messages, m.Counted) (more : List Byte) :
    recordsLength messages.length (messages.flatMap messageRecord ++ more) =
      (messages.flatMap messageRecord).length := by
  induction messages with
  | nil => rfl
  | cons m ms ih =>
    obtain ⟨hm, hms⟩ := List.forall_mem_cons.mp h
    have hhere : 5 + ((messageRecord m ++ (ms.flatMap messageRecord ++ more)).getD 1 0).toNat =
        (messageRecord m).length := by
      rw [messageRecord_length, ← hm]
      rfl
    rw [List.length_cons, List.flatMap_cons, List.append_assoc, recordsLength, hhere, List.drop_left, ih hms,
      List.length_append]

/-- Every message of RA_FEED is one that DECODE answered (R171). -/
theorem feedLoop_messages_decoded {own : Byte} {passes : Nat} {buf : List Byte} {m : Message}
    (h : m ∈ (feedLoop own passes buf).messages) : ∃ part n, decodeFrame part = .ok m n := by
  induction passes generalizing buf with
  | zero => cases h
  | succ p ih =>
    rcases decodeFrame_cases buf with ⟨hpart, -⟩ | ⟨-, n, -, -, ⟨m', hok⟩ | herr⟩
    · rw [feedLoop_partial _ hpart] at h
      cases h
    · rw [feedLoop_ok p hok] at h
      rcases List.mem_append.mp h with hacc | hlater
      · unfold accept at hacc
        split at hacc
        · exact ⟨buf, n, List.mem_singleton.mp hacc ▸ hok⟩
        · cases hacc
      · exact ih hlater
    · rw [feedLoop_error p herr] at h
      cases h

/-- Each message of RA_FEED took at least 5 bytes off the buffer (R172). -/
theorem feedLoop_messages_length (own : Byte) (passes : Nat) (buf : List Byte) :
    5 * (feedLoop own passes buf).messages.length ≤ buf.length := by
  induction passes generalizing buf with
  | zero => exact Nat.zero_le _
  | succ p ih =>
    rcases decodeFrame_cases buf with ⟨hpart, -⟩ | ⟨-, n, hn, hle, ⟨m, hok⟩ | herr⟩
    · rw [feedLoop_partial _ hpart]
      exact Nat.zero_le _
    · have hrest := ih (buf.drop n)
      have hacc : (accept own m).length ≤ 1 := by unfold accept; split <;> simp
      rw [feedLoop_ok p hok, List.length_append]
      rw [List.length_drop] at hrest
      omega
    · rw [feedLoop_error p herr]
      exact Nat.zero_le _

/-- A reader of DEC's response finds its length: the record's when there is one, else 3 (R151). -/
theorem responseLength_dec (seq more : List Byte) :
    responseLength (.dec seq) (decodeResponse (decodeFrame seq) ++ more) =
      (decodeResponse (decodeFrame seq)).length := by
  cases hd : decodeFrame seq with
  | partialMessage => rfl
  | checksumError n => rfl
  | ok m n =>
    have hcounted : m.Counted := (decodedMessagesAreConsistent seq m n hd).1
    have hrecord := recordsLength_records (messages := [m]) (by simpa using hcounted) more
    simp only [List.flatMap_cons, List.flatMap_nil, List.append_nil, List.length_singleton] at hrecord
    change 3 + recordsLength 1 (messageRecord m ++ more) = (messageRecord m).length + 1 + 1 + 1
    omega

/-- A reader of RA.FEED's response finds its length: `k` records, and `k` fits its 16-bit count (R179). -/
theorem responseLength_raFeed {own : Byte} {rxbuf chunk : List Byte} (more : List Byte)
    (hlen : (rxbuf ++ chunk).length ≤ 5 * 65535) :
    responseLength (.raFeed chunk) (feedResponse (raFeed own rxbuf chunk) ++ more) =
      (feedResponse (raFeed own rxbuf chunk)).length := by
  have hcounted : ∀ m ∈ (raFeed own rxbuf chunk).messages, m.Counted := fun m hm =>
    have ⟨part, n, hok⟩ := feedLoop_messages_decoded hm
    (decodedMessagesAreConsistent part m n hok).1
  have hk : 5 * (raFeed own rxbuf chunk).messages.length ≤ (rxbuf ++ chunk).length :=
    feedLoop_messages_length own _ (rxbuf ++ chunk)
  generalize raFeed own rxbuf chunk = r at *
  change 3 + recordsLength (count16 (lo16 r.messages.length) (hi16 r.messages.length))
    (r.messages.flatMap messageRecord ++ more) = (r.messages.flatMap messageRecord).length + 1 + 1 + 1
  rw [count16_lo16_hi16 _ (by omega), recordsLength_records hcounted]
  omega

/-- Each command's response says its own length to a reader who knows the command, whatever follows. -/
theorem responseLength_effect {i : Instr} {s : State} (hi : i.wellFormed = true) (hs : holdsNoWholeFrame s.rxbuf)
    (more : List Byte) : responseLength i ((effect i s).2 ++ more) = (effect i s).2.length := by
  cases i with
  | sumInit | sumAdd | sumRead | sumGen | sumCheck | crcInit | crcUpdate | crcRead | crcGen | crcCheck | raSetaddr
  | raGetaddr | raFlush | raLevel => rfl
  | encAdd dest src header data | encCrc dest src header data =>
    change 1 + frameLength (lengthByte data) = _
    rw [frameLength, lengthByte_toNat (dataFits_iff.mp hi)]
    simp only [effect, encodeAdd, encodeCrc, List.length_cons, List.length_append, List.length_nil]
    omega
  | dec seq => exact responseLength_dec seq more
  | raFeed chunk =>
    have hchunk := seqFits_iff.mp hi
    have hbuf := length_le_of_holdsNoWholeFrame hs
    exact responseLength_raFeed more (by rw [List.length_append]; omega)

/-- Settles O53: a command's response is the one of its effect, not empty since it begins with a status, and
`responseLength_effect` gives its length. -/
theorem responsesAreSelfDelimiting : Obligations.ResponsesAreSelfDelimiting := by
  refine ⟨fun i s t hs h => ?_, fun s op rest hd => ⟨_, step_of_illegal hd, rfl⟩⟩
  obtain ⟨status, fields, hresp, -⟩ := effect_reportsStatus i s
  exact ⟨(effect i s).2, exec_respPort h, by rw [hresp]; nofun, responseLength_effect (exec_next h).1 hs⟩

/-! ### Pseudo-instructions (R79) -/

/-- A run of CRC.UPDATEs folds the byte step over CRC_REG and answers OK for each byte (R125). -/
theorem execAll_crcUpdates (seq : List Byte) (is : List Instr) (s : State) :
    execAll (seq.map .crcUpdate ++ is) s =
      execAll is ((s.setCrcReg (seq.foldl crcStep s.crcReg)).respond (List.replicate seq.length 0x00)) := by
  induction seq generalizing s with
  | nil => simp [State.setCrcReg, State.respond]
  | cons b bs ih =>
    have hexec : exec (.crcUpdate b) s = .next ((s.setCrcReg (crcStep s.crcReg b)).respond [0x00]) := rfl
    simp only [List.map_cons, List.cons_append, execAll, hexec, ih]
    simp [State.setCrcReg, State.respond, List.replicate_succ]

/-- A run of SUM.ADDs adds the sequence's sum to SUM_REG and answers OK for each byte (R105). -/
theorem execAll_sumAdds (seq : List Byte) (is : List Instr) (s : State) :
    execAll (seq.map .sumAdd ++ is) s =
      execAll is ((s.setSumReg (s.sumReg + sum8 seq)).respond (List.replicate seq.length 0x00)) := by
  induction seq generalizing s with
  | nil => simp [State.setSumReg, State.respond]
  | cons b bs ih =>
    have hexec : exec (.sumAdd b) s = .next ((s.setSumReg (s.sumReg + b)).respond [0x00]) := rfl
    have hsum : sum8 (b :: bs) = b + sum8 bs := by simpa using sum8_append [b] bs
    simp only [List.map_cons, List.cons_append, execAll, hexec, ih, hsum]
    simp [State.setSumReg, State.respond, List.replicate_succ, BitVec.add_assoc]

/-- Settles O59: the expansions are definitions, and the two runs are `execAll_crcUpdates` and `execAll_sumAdds` between
their first and last commands. -/
theorem pseudoInstructionsExpand : Obligations.PseudoInstructionsExpand := by
  intro seq b s
  refine ⟨rfl, rfl, rfl, rfl, ?_, fun hlen => ?_, ?_, rfl⟩
  · have hinit : exec .crcInit s = .next ((s.setCrcReg crcInitial).respond [0x00]) := rfl
    rw [crcSeq, List.cons_append, execAll, hinit]
    simp only [execAll_crcUpdates]
    simp [execAll, exec, execCrcRead, complete, State.setCrcReg, State.respond, List.replicate_succ, crc16, Status.code]
  · exact exec_of_wellFormed (.crcGen seq) s (seqFits_iff.mpr hlen)
  · have hinit : exec .sumInit s = .next ((s.setSumReg 0x00).respond [0x00]) := rfl
    rw [sumSeq, List.cons_append, execAll, hinit]
    simp only [execAll_sumAdds]
    simp [execAll, exec, execSumRead, complete, State.setSumReg, State.respond, List.replicate_succ, checksum,
      Status.code]

/-! ### What an assembled line yields can be written (R78, log 8) -/

/-- Each of these commands has an encoding. -/
abbrev Writable (is : List Instr) : Prop := ∀ i ∈ is, i.wellFormed = true

theorem asmNone_writable {is out : List Instr} {ts : List Token} (h : asmNone is ts = some out) (his : Writable is) :
    Writable out := by
  unfold asmNone at h
  split at h
  · exact Option.some.inj h ▸ his
  · cases h

theorem asmImm8_writable {mk : Byte → List Instr} {out : List Instr} {ts : List Token}
    (h : asmImm8 mk ts = some out) (hmk : ∀ b, Writable (mk b)) : Writable out := by
  unfold asmImm8 at h
  split at h
  · obtain ⟨b, -, rfl⟩ := Option.map_eq_some_iff.mp h
    exact hmk b
  · cases h

theorem asmSeq_writable {mk : List Byte → List Instr} {out : List Instr} {ts : List Token}
    (h : asmSeq mk ts = some out) (hmk : ∀ seq, seqFits seq = true → Writable (mk seq)) : Writable out := by
  unfold asmSeq at h
  split at h
  · obtain ⟨seq, -, hout⟩ := Option.bind_eq_some_iff.mp h
    split at hout
    next hfits => exact Option.some.inj hout ▸ hmk seq hfits
    next => cases hout
  · cases h

theorem asmMsg_writable {mk : Byte → Byte → Byte → List Byte → Instr} {out : List Instr} {ts : List Token}
    (h : asmMsg mk ts = some out) (hmk : ∀ d s h data, dataFits data = true → Writable [mk d s h data]) :
    Writable out := by
  unfold asmMsg at h
  split at h
  · simp only [Option.bind_eq_some_iff] at h
    obtain ⟨dest, -, src, -, header, -, data, -, hout⟩ := h
    split at hout
    next hfits => exact Option.some.inj hout ▸ hmk dest src header data hfits
    next => cases hout
  · cases h

theorem crcSeq_writable (seq : List Byte) : Writable (crcSeq seq) := by
  simp only [crcSeq, Writable, List.cons_append, List.forall_mem_cons, List.forall_mem_append, List.forall_mem_map]
  exact ⟨rfl, fun _ _ => rfl, rfl, nofun⟩

theorem sumSeq_writable (seq : List Byte) : Writable (sumSeq seq) := by
  simp only [sumSeq, Writable, List.cons_append, List.forall_mem_cons, List.forall_mem_append, List.forall_mem_map]
  exact ⟨rfl, fun _ _ => rfl, rfl, nofun⟩

theorem writable_singleton {i : Instr} (h : i.wellFormed = true) : Writable [i] :=
  List.forall_mem_singleton.mpr h

/-- Every mnemonic's operand form yields commands that can be written. -/
theorem assembleOperation_writable {mnemonic : String} {ts : List Token} {is : List Instr}
    (h : assembleOperation mnemonic ts = some is) : Writable is := by
  unfold assembleOperation at h
  split at h
  · exact asmNone_writable h (writable_singleton rfl)
  · exact asmImm8_writable h fun _ => writable_singleton rfl
  · exact asmNone_writable h (writable_singleton rfl)
  · exact asmSeq_writable h fun _ hfits => writable_singleton hfits
  · exact asmSeq_writable h fun _ hfits => writable_singleton hfits
  · exact asmNone_writable h (writable_singleton rfl)
  · exact asmImm8_writable h fun _ => writable_singleton rfl
  · exact asmNone_writable h (writable_singleton rfl)
  · exact asmSeq_writable h fun _ hfits => writable_singleton hfits
  · exact asmSeq_writable h fun _ hfits => writable_singleton hfits
  · exact asmMsg_writable h fun _ _ _ _ hfits => writable_singleton hfits
  · exact asmMsg_writable h fun _ _ _ _ hfits => writable_singleton hfits
  · exact asmSeq_writable h fun _ hfits => writable_singleton hfits
  · exact asmImm8_writable h fun _ => writable_singleton rfl
  · exact asmNone_writable h (writable_singleton rfl)
  · exact asmSeq_writable h fun _ hfits => writable_singleton hfits
  · exact asmNone_writable h (writable_singleton rfl)
  · exact asmNone_writable h (writable_singleton rfl)
  · exact asmSeq_writable h fun seq _ => crcSeq_writable seq
  · exact asmSeq_writable h fun seq _ => sumSeq_writable seq
  · exact asmImm8_writable h fun _ => writable_singleton rfl
  · exact asmNone_writable h (writable_singleton rfl)
  · cases h

/-- Every command a line yields can be written. -/
theorem assembleLine_writable {line : String} {is : List Instr} (h : assembleLine line = some is) : Writable is := by
  unfold assembleLine at h
  split at h
  · exact Option.some.inj h ▸ nofun
  · exact assembleOperation_writable h
  · cases h

/-! ### The lines of each operand form (R78, R79) -/

/-- A text that the assembler cuts as one word. -/
abbrev IsWord (w : String) : Prop := w.toList ≠ [] ∧ ∀ c ∈ w.toList, isWordChar c

theorem tokenize_isWord {w : String} (hw : IsWord w) : tokenize [] w.toList = [.word w] := by
  rw [← List.append_nil w.toList, tokenize_word _ _ hw.2]
  simp [tokenize, flushWord_of_ne_nil hw.1]

theorem tokenize_space (cs : List Char) : tokenize [] (' ' :: cs) = tokenize [] cs := by
  simp [tokenize, flushWord]

theorem tokenize_openBracket (cs : List Char) : tokenize [] ('[' :: cs) = .openBracket :: tokenize [] cs := by
  simp [tokenize, flushWord]

/-- The mnemonic is a word, and this is how its operands are read. -/
def ReadsOperands (mnemonic : String) (read : List Token → Option (List Instr)) : Prop :=
  IsWord mnemonic ∧ assembleOperation mnemonic = read

/-- A mnemonic without operands yields its commands. -/
theorem assembleLine_none {mnemonic : String} {is : List Instr} (h : ReadsOperands mnemonic (asmNone is)) :
    assembleLine mnemonic = some is := by
  obtain ⟨hw, hread⟩ := h
  simp only [assembleLine, tokenize_isWord hw, hread]
  rfl

/-- Behind a mnemonic and a space, the operands are read in the mnemonic's form. -/
theorem assembleLine_operands {mnemonic : String} {read : List Token → Option (List Instr)}
    (h : ReadsOperands mnemonic read) {line : String} {operands : List Char}
    (hline : line.toList = mnemonic.toList ++ ' ' :: operands) : assembleLine line = read (tokenize [] operands) := by
  obtain ⟨hw, rfl⟩ := h
  exact assembleLine_operation mnemonic hw.1 hw.2 operands line hline

/-- A line with one number yields its commands exactly when the number is a byte. -/
theorem assembleLine_imm8 {mnemonic : String} {mk : Byte → List Instr} (h : ReadsOperands mnemonic (asmImm8 mk))
    {n : Nat} {text : String} (ht : text ∈ numeralTexts n) :
    assembleLine (mnemonic ++ " " ++ text) = if n ≤ 255 then some (mk (BitVec.ofNat 8 n)) else none := by
  have hline : (mnemonic ++ " " ++ text).toList = mnemonic.toList ++ ' ' :: text.toList := by simp
  rw [assembleLine_operands h hline, tokenize_isWord (numeral_letters ht), asmImm8, numberByte_numeral ht]
  split <;> rfl

/-- The text of a bracketed sequence (R78). -/
def bracketText (letter : Char → Char) (seq : List Byte) : List Char := '[' :: ((hexList letter seq).toList ++ [']'])

theorem tokenize_bracketText {letter : Char → Char} (hl : letter = id ∨ letter = Char.toUpper) (seq : List Byte) :
    tokenize [] (bracketText letter seq) = .openBracket :: (byteWords letter seq ++ [.closeBracket]) := by
  rw [bracketText, tokenize_openBracket, tokenize_hexList hl]

/-- A line with a byte list yields its commands exactly when the list's count fits 16 bits. -/
theorem assembleLine_seq {mnemonic : String} {mk : List Byte → List Instr} (h : ReadsOperands mnemonic (asmSeq mk))
    {letter : Char → Char} (hl : letter = id ∨ letter = Char.toUpper) (seq : List Byte) :
    assembleLine (mnemonic ++ " [" ++ hexList letter seq ++ "]") =
      if seq.length ≤ 65535 then some (mk seq) else none := by
  have hline : (mnemonic ++ " [" ++ hexList letter seq ++ "]").toList =
      mnemonic.toList ++ ' ' :: bracketText letter seq := by simp [bracketText]
  rw [assembleLine_operands h hline, tokenize_bracketText hl, asmSeq, bracketed_byteWords hl]
  simp only [Option.bind_some, seqFits_iff]

/-- A line with a message yields its command exactly when its three numbers are bytes and one
byte can count its data. -/
theorem assembleLine_msg {mnemonic : String} {mk : Byte → Byte → Byte → List Byte → Instr}
    (hm : ReadsOperands mnemonic (asmMsg mk)) {letter : Char → Char} (hl : letter = id ∨ letter = Char.toUpper)
    (seq : List Byte) {d s h : Nat} {dest src header : String} (hd : dest ∈ numeralTexts d) (hs : src ∈ numeralTexts s)
    (hh : header ∈ numeralTexts h) :
    assembleLine (mnemonic ++ " " ++ dest ++ ", " ++ src ++ ", " ++ header ++ ", [" ++ hexList letter seq ++ "]") =
      if d ≤ 255 ∧ s ≤ 255 ∧ h ≤ 255 ∧ seq.length ≤ 255 then
        some [mk (BitVec.ofNat 8 d) (BitVec.ofNat 8 s) (BitVec.ofNat 8 h) seq]
      else none := by
  have hline : (mnemonic ++ " " ++ dest ++ ", " ++ src ++ ", " ++ header ++ ", [" ++ hexList letter seq ++ "]").toList =
      mnemonic.toList ++ ' ' :: (dest.toList ++ ',' :: ' ' :: (src.toList ++ ',' :: ' ' ::
        (header.toList ++ ',' :: ' ' :: bracketText letter seq))) := by simp [bracketText]
  rw [assembleLine_operands hm hline]
  simp only [tokenize_numeral_comma hd, tokenize_numeral_comma hs, tokenize_numeral_comma hh, tokenize_space,
    tokenize_bracketText hl, asmMsg, numberByte_numeral hd, numberByte_numeral hs, numberByte_numeral hh,
    bracketed_byteWords hl, dataFits_iff, Option.bind_some, ite_and]
  split_ifs <;> rfl

theorem assembleLine_comment (line comment : String) : assembleLine (line ++ ";" ++ comment) = assembleLine line := by
  have htokens : tokenize [] (line ++ ";" ++ comment).toList = tokenize [] line.toList := by
    simpa using tokenize_comment line.toList comment.toList []
  rw [assembleLine, htokens, assembleLine]

/-- Settles O60: each operand form's lemma gives its lines, once the mnemonic is seen to be a word with that form. -/
theorem assembledLinesCanBeWritten : Obligations.AssembledLinesCanBeWritten := by
  refine ⟨fun _ _ h => assembleLine_writable h, fun op hop => assembleLine_none ?_,
    fun op hop n text ht => assembleLine_imm8 ?_ ht,
    fun letter seq hl => ⟨fun op hop => assembleLine_seq ?_ hl seq,
      fun op hop d s h dest hd src hs header hh => assembleLine_msg ?_ hl seq hd hs hh⟩,
    assembleLine_comment⟩ <;>
    simp only [List.mem_cons, List.not_mem_nil, or_false] at hop
  · rcases hop with rfl | rfl | rfl | rfl | rfl | rfl | rfl | rfl <;> exact ⟨by simp [IsWord, isWordChar], rfl⟩
  · rcases hop with rfl | rfl | rfl | rfl <;> exact ⟨by simp [IsWord, isWordChar], rfl⟩
  · rcases hop with rfl | rfl | rfl | rfl | rfl | rfl | rfl | rfl <;> exact ⟨by simp [IsWord, isWordChar], rfl⟩
  · rcases hop with rfl | rfl <;> exact ⟨by simp [IsWord, isWordChar], rfl⟩

end Sys2Proof.Machine
end

section
/-! PROOFS. The additive family (spec 40): what CHECKSUM is, which byte validates a sequence, and the whole next state
of the unit's five commands. -/

namespace Sys2Proof.Machine

/-! ### CHECKSUM (R100 to R103, R109) -/

theorem sum8_append_single_toNat (seq : List Byte) (b : Byte) :
    (sum8 (seq ++ [b])).toNat = ((sum8 seq).toNat + b.toNat) % 256 := by
  rw [sum8_append, sum8_single, BitVec.toNat_add]

theorem checksum_eq_neg (seq : List Byte) : checksum seq = -(sum8 seq) := checksumOf_eq_neg _

theorem checksum_toNat (seq : List Byte) : (checksum seq).toNat = (256 - (sum8 seq).toNat) % 256 := by
  rw [checksum_eq_neg, BitVec.toNat_neg]

theorem checksum_of_sum8_eq_zero {seq : List Byte} (h : sum8 seq = 0) : checksum seq = 0 := by
  rw [checksum_eq_neg, h]
  rfl

theorem checksum_toNat_of_sum8_ne_zero {seq : List Byte} (h : sum8 seq ≠ 0) :
    (checksum seq).toNat = 256 - (sum8 seq).toNat := by
  have hpos : 0 < (sum8 seq).toNat := Nat.pos_of_ne_zero fun h0 => h (BitVec.eq_of_toNat_eq h0)
  rw [checksum_toNat, Nat.mod_eq_of_lt (by omega)]

/-- The sum of the first bytes of a frame, over numbers, with the payload's own sum as one term (R109). -/
theorem sum8_payload_toNat (dest len src header : Byte) (data : List Byte) :
    (sum8 ([dest, len, src] ++ [header] ++ data)).toNat =
      (dest.toNat + len.toNat + src.toNat + (payloadSum header data).toNat) % 256 := by
  rw [payloadSum, sum8_toNat, sum8_toNat]
  simp only [List.cons_append, List.nil_append, List.map_cons, List.sum_cons]
  omega

/-- Settles O1: the frame's length byte is `lengthByte data`, and each clause is a lemma on `sum8` or `checksum`. -/
theorem checksumIsTheByteThatZeroesTheSum : Obligations.ChecksumIsTheByteThatZeroesTheSum := by
  refine fun seq b => ⟨sum8_toNat seq, sum8_nil, sum8_append_single_toNat seq b, sum8_append_checksum seq,
    checksum_of_sum8_eq_zero, checksum_toNat_of_sum8_ne_zero, checksum_toNat seq, checksum_eq_neg seq,
    fun dest src header data => ⟨lengthByte data, rfl, rfl, ?_⟩⟩
  rw [checksum_toNat, sum8_payload_toNat]

theorem sum8_eq_zero_iff (seq : List Byte) : sum8 seq = 0 ↔ (seq.map BitVec.toNat).sum % 256 = 0 := by
  rw [BitVec.toNat_eq, sum8_toNat]
  rfl

theorem sumValid_iff (seq : List Byte) : sumValid seq = true ↔ sum8 seq = 0 := beq_iff_eq

/-- One more byte brings the sum to 0 exactly when it is the negated sum (R103). -/
theorem sumValid_append_single_iff (seq : List Byte) (c : Byte) :
    sumValid (seq ++ [c]) = true ↔ c = checksum seq := by
  rw [sumValid_iff, sum8_append, sum8_single, checksum_eq_neg]
  exact add_eq_zero_iff_neg_eq.trans eq_comm

/-- Settles O2: both directions are `sumValid_append_single_iff`, and the frame's sum is `sum8_encodeAdd`. -/
theorem exactlyOneChecksumByteValidates : Obligations.ExactlyOneChecksumByteValidates := fun seq =>
  ⟨(sumValid_append_single_iff seq _).mpr rfl, fun c => (sumValid_append_single_iff seq c).mp,
    fun dest src header data => (sum8_eq_zero_iff _).mp (sum8_encodeAdd dest src header data)⟩

/-! ### The unit's commands (R104 to R108) -/

/-- The whole next state of SUM.INIT (R104). -/
theorem exec_sumInit (s : State) :
    exec .sumInit s = .next { s with sumReg := 0x00, respPort := s.respPort ++ [0x00] } :=
  exec_of_wellFormed .sumInit s rfl

/-- Settles O3: where SUM_REG is already 0, SUM.INIT writes back what it finds. -/
theorem sumInitClearsSumReg : Obligations.SumInitClearsSumReg := by
  refine fun s => ⟨exec_sumInit s, fun hzero => ?_⟩
  simp only [exec_sumInit, hzero]

/-- The whole next state of SUM.ADD (R105). -/
theorem exec_sumAdd (b : Byte) (s : State) :
    exec (.sumAdd b) s = .next { s with sumReg := s.sumReg + b, respPort := s.respPort ++ [0x00] } :=
  exec_of_wellFormed (.sumAdd b) s rfl

/-- Byte addition is addition mod 256: the carry out of bit 7 is lost (R105). -/
theorem byte_add_eq_ofNat (a b : Byte) : a + b = BitVec.ofNat 8 ((a.toNat + b.toNat) % 256) := by
  apply BitVec.eq_of_toNat_eq
  simp

/-- Settles O4: `exec_sumAdd` at each of the operands, with the sum of the two bytes. -/
theorem sumAddAddsModulo256 : Obligations.SumAddAddsModulo256 := by
  refine fun b s => ⟨?_, ?_, ?_, ?_⟩
  · rw [exec_sumAdd, byte_add_eq_ofNat]
  · simp only [exec_sumAdd, BitVec.ofNat_eq_ofNat, BitVec.add_zero]
  · simp [exec_sumAdd]
  · simp [exec_sumAdd]

/-- The whole next state of SUM.READ (R106). -/
theorem exec_sumRead (s : State) :
    exec .sumRead s = .next { s with respPort := s.respPort ++ [0x00, s.sumReg, checksumOf s.sumReg] } :=
  exec_of_wellFormed .sumRead s rfl

theorem checksumOf_zero : checksumOf 0x00 = 0x00 := by decide

/-- Settles O5: SUM.READ's effect, and for the rule's sequence the run of SUM.SEQ, which O59 gives. -/
theorem sumReadReturnsSumAndChecksum : Obligations.SumReadReturnsSumAndChecksum := by
  refine fun s => ⟨exec_sumRead s, ?_, ?_⟩
  · rw [exec_sumRead, checksumOf_zero]
  · obtain ⟨-, -, -, -, -, -, hrun, -⟩ := pseudoInstructionsExpand [0x02, 0x00, 0x01, 0xF5] 0 s
    rw [List.append_assoc] at hrun
    exact hrun

/-- The whole next state of SUM.GEN on a sequence that can be written (R107). -/
theorem exec_sumGen {seq : List Byte} (s : State) (h : seq.length ≤ 65535) :
    exec (.sumGen seq) s = .next { s with respPort := s.respPort ++ [0x00, checksum seq] } :=
  exec_of_wellFormed (.sumGen seq) s (seqFits_iff.mpr h)

/-- Settles O6: `exec_sumGen`, with the checksum 0 of a sum that is a multiple of 256. -/
theorem sumGenReturnsTheChecksum : Obligations.SumGenReturnsTheChecksum := by
  refine fun seq s h => ⟨exec_sumGen s h, fun hsum => ?_, exec_sumGen s (by decide), exec_sumGen s (by decide)⟩
  rw [exec_sumGen s h, checksum_of_sum8_eq_zero ((sum8_eq_zero_iff seq).mpr hsum)]

theorem okByte_sumValid (seq : List Byte) :
    okByte (sumValid seq) = if (seq.map BitVec.toNat).sum % 256 = 0 then 0x01 else 0x00 := by
  simp only [okByte, sumValid_iff, sum8_eq_zero_iff]

/-- The whole next state of SUM.CHECK on a sequence that can be written (R108). -/
theorem exec_sumCheck {seq : List Byte} (s : State) (h : seq.length ≤ 65535) :
    exec (.sumCheck seq) s = .next { s with respPort := s.respPort ++ [0x00, okByte (sumValid seq)] } :=
  exec_of_wellFormed (.sumCheck seq) s (seqFits_iff.mpr h)

/-- Settles O7: `exec_sumCheck`, whose answer `okByte_sumValid` gives over numbers. -/
theorem sumCheckReportsWhetherTheSumIsZero : Obligations.SumCheckReportsWhetherTheSumIsZero := by
  refine fun seq s h => ⟨?_, exec_sumCheck s (by decide), exec_sumCheck s (by decide), exec_sumCheck s (by decide)⟩
  rw [exec_sumCheck s h, okByte_sumValid]

end Sys2Proof.Machine
end

section
/-! PROOFS. The CRC family (spec 41): the byte step over numbers, the fold over a sequence and what it tells apart, the
validator on a frame, the CRC16 frame byte by byte, and the whole next state of the unit's five commands. -/

namespace Sys2Proof.Machine

/-! ### The byte step (R120) -/

/-- One iteration of the byte step over numbers (R120). -/
def crcShiftNat (r : Nat) : Nat := if 32768 ≤ r then Nat.xor (r * 2 % 65536) 0x1021 else r * 2 % 65536

theorem repeat_crcShift_toNat (n : Nat) (r : Word) :
    (Nat.repeat crcShift n r).toNat = Nat.repeat crcShiftNat n r.toNat := by
  induction n with
  | zero => rfl
  | succ n ih => rw [Nat.repeat, crcShift_toNat, ih, Nat.repeat, crcShiftNat]

/-- The byte goes into bits 15..8 of the register. -/
theorem xor_byte_toNat (c : Word) (b : Byte) :
    (c ^^^ (b.setWidth 16 <<< 8)).toNat = Nat.xor c.toNat (b.toNat * 256) := by
  have hb := b.isLt
  have hbyte : (b.setWidth 16 <<< 8).toNat = b.toNat * 256 := by
    rw [BitVec.toNat_shiftLeft, BitVec.toNat_setWidth, Nat.shiftLeft_eq]
    omega
  rw [BitVec.toNat_xor, hbyte]
  rfl

/-- Settles O8: the eight iterations are `repeat_crcShift_toNat`, from the register `xor_byte_toNat` gives. -/
theorem crcStepIsEightShiftsOfThePolynomial : Obligations.CrcStepIsEightShiftsOfThePolynomial := by
  intro c b
  rw [crcStep, repeat_crcShift_toNat, xor_byte_toNat]
  rfl

/-! ### The whole-sequence CRC (R121) -/

theorem crc16_append (front back : List Byte) : crc16 (front ++ back) = back.foldl crcStep (crc16 front) :=
  List.foldl_append

theorem crcStep_zero_zero : crcStep 0x0000 0x00 = 0x0000 := by decide

/-- A run of zero bytes leaves the initial register as it is (R121). -/
theorem crc16_replicate_zero (n : Nat) : crc16 (List.replicate n 0x00) = 0x0000 := by
  induction n with
  | zero => rfl
  | succ n ih =>
    rw [List.replicate_succ', crc16_append, ih]
    exact crcStep_zero_zero

/-- Settles O9: the fold's equations, and a run of leading zero bytes leaves the register at its initial value. -/
theorem crc16IsALeftFoldFromZero : Obligations.Crc16IsALeftFoldFromZero := by
  refine fun seq b n => ⟨rfl, crc16_append seq [b], crcStep_zero_zero, ?_, crc16_replicate_zero n, ?_⟩
  · rw [crc16_append, crc16_replicate_zero]
    rfl
  · decide +kernel

/-! ### One changed byte (R120, R121)

The polynomial is odd, so bit 0 of a shifted register is the top bit that was tested: an iteration loses nothing. -/

theorem crcShift_getLsbD_zero (r : Word) : (crcShift r).getLsbD 0 = r.getLsbD 15 := by
  unfold crcShift
  split
  next h => simp [h, crcPolynomial]
  next h => simpa using h

theorem crcShift_injective : Function.Injective crcShift := by
  intro r s h
  have htop : r.getLsbD 15 = s.getLsbD 15 := by rw [← crcShift_getLsbD_zero, h, crcShift_getLsbD_zero]
  have hshift : r <<< 1 = s <<< 1 := by
    unfold crcShift at h
    rw [htop] at h
    split at h
    · exact (BitVec.xor_left_inj _).mp h
    · exact h
  refine BitVec.eq_of_getLsbD_eq fun i hi => ?_
  by_cases h15 : i = 15
  · rw [h15, htop]
  · have hbit := congrArg (·.getLsbD (i + 1)) hshift
    simpa [show i + 1 < 16 by omega, BitVec.getLsbD_eq_getElem hi] using hbit

theorem repeat_crcShift_injective (n : Nat) : Function.Injective (Nat.repeat crcShift n) := by
  induction n with
  | zero => exact Function.injective_id
  | succ n ih => exact crcShift_injective.comp ih

/-- Two registers that the same byte takes to the same register are the same. -/
theorem crcStep_register_injective (b : Byte) : Function.Injective (crcStep · b) :=
  fun _ _ h => (BitVec.xor_left_inj _).mp (repeat_crcShift_injective 8 h)

/-- Two bytes that take the same register to the same register are the same. -/
theorem crcStep_byte_injective (c : Word) : Function.Injective (crcStep c) := by
  intro x y h
  have hword : x.setWidth 16 <<< 8 = y.setWidth 16 <<< 8 := (BitVec.xor_right_inj _).mp (repeat_crcShift_injective 8 h)
  refine BitVec.eq_of_getLsbD_eq fun i hi => ?_
  have hbit := congrArg (·.getLsbD (i + 8)) hword
  simpa [show i + 8 < 16 by omega, show i < 16 by omega] using hbit

theorem foldl_crcStep_injective (seq : List Byte) : Function.Injective (seq.foldl crcStep) := by
  induction seq with
  | nil => exact Function.injective_id
  | cons b bs ih => exact ih.comp (crcStep_register_injective b)

/-- Settles O17: the bytes after the changed one, and its own step, are both injective. -/
theorem crcDetectsAnyOneChangedByte : Obligations.CrcDetectsAnyOneChangedByte := by
  intro front back x y h
  simp only [crc16_append] at h
  exact crcStep_byte_injective _ (foldl_crcStep_injective back h)

/-! ### The validator (R123, R129) -/

theorem crcValid_of_short {f : List Byte} (h : f.length < 5) : crcValid f = false := if_pos h

/-- From 5 bytes on, the validator compares byte 2 and the last byte with the CRC of the others (R123). -/
theorem crcValid_iff {f : List Byte} (h : 5 ≤ f.length) :
    crcValid f = true ↔
      crcLo (crc16 ([f.getD 0 0, f.getD 1 0, f.getD 3 0] ++ (f.drop 4).take (f.length - 5))) = f.getD 2 0 ∧
      crcHi (crc16 ([f.getD 0 0, f.getD 1 0, f.getD 3 0] ++ (f.drop 4).take (f.length - 5))) =
        f.getD (f.length - 1) 0 := by
  rw [crcValid, if_neg (by omega), withoutCrcBytes_eq f h, Bool.and_eq_true, beq_iff_eq, beq_iff_eq]

/-- Settles O10: `crcValid_iff`, and a decode that is not partial has found a whole frame of at least 5 bytes. -/
theorem crcValidComparesTheTwoRemovedBytes : Obligations.CrcValidComparesTheTwoRemovedBytes := by
  refine fun f => ⟨crcValid_of_short, crcValid_iff, fun hdecode => ?_⟩
  rcases decodeFrame_cases f with ⟨-, hpart⟩ | ⟨-, n, hn, hle, -⟩
  · exact absurd hpart hdecode
  · rw [frameLength, ← hn, List.length_take_of_le hle]
    omega

/-- Whatever stands in the length byte, exactly the CRC's pair validates a sequence laid out as a frame (R128, R129). -/
theorem crcValid_frame_iff (dest len lo header hi : Byte) (data : List Byte) :
    crcValid ([dest, len, lo, header] ++ data ++ [hi]) = true ↔
      lo = crcLo (crc16 ([dest, len, header] ++ data)) ∧ hi = crcHi (crc16 ([dest, len, header] ++ data)) := by
  rw [crcValid_iff (by simp), eq_comm (a := lo), eq_comm (a := hi)]
  simp

/-- Settles O16: the length byte is the number of data bytes in `crcValid_frame_iff`. -/
theorem exactlyOneCrcPairValidates : Obligations.ExactlyOneCrcPairValidates :=
  fun dest header lo hi data _ => crcValid_frame_iff dest _ lo header hi data

/-! ### The unit's commands (R124 to R128) -/

/-- The whole next state of CRC.INIT (R124). -/
theorem exec_crcInit (s : State) :
    exec .crcInit s = .next { s with crcReg := 0x0000, respPort := s.respPort ++ [0x00] } :=
  exec_of_wellFormed .crcInit s rfl

/-- Settles O11: `exec_crcInit`, whatever CRC_REG was. -/
theorem crcInitClearsCrcReg : Obligations.CrcInitClearsCrcReg := fun s =>
  ⟨exec_crcInit s, exec_crcInit { s with crcReg := 0xBEEF }⟩

/-- The whole next state of CRC.UPDATE (R125). -/
theorem exec_crcUpdate (b : Byte) (s : State) :
    exec (.crcUpdate b) s = .next { s with crcReg := crcStep s.crcReg b, respPort := s.respPort ++ [0x00] } :=
  exec_of_wellFormed (.crcUpdate b) s rfl

/-- Settles O12: `exec_crcUpdate`, and five evaluations of the byte step. -/
theorem crcUpdateStepsCrcReg : Obligations.CrcUpdateStepsCrcReg := fun b s => ⟨exec_crcUpdate b s, by decide⟩

/-- The whole next state of CRC.READ: the response port gets the pair, low byte first (R126). -/
theorem exec_crcRead (s : State) :
    exec .crcRead s = .next { s with respPort := s.respPort ++ [0x00, crcLo s.crcReg, crcHi s.crcReg] } :=
  exec_of_wellFormed .crcRead s rfl

theorem crcLo_eq_ofNat (c : Word) : crcLo c = BitVec.ofNat 8 (c.toNat % 256) := by
  rw [← crcLo_toNat, BitVec.ofNat_toNat, BitVec.setWidth_eq]

theorem crcHi_eq_ofNat (c : Word) : crcHi c = BitVec.ofNat 8 (c.toNat / 256) := by
  rw [← crcHi_toNat, BitVec.ofNat_toNat, BitVec.setWidth_eq]

/-- R126's register and the pair it answers. -/
theorem crc16_poll : crc16 [0x02, 0x00, 0xFE] = 0x60B1 ∧ crcLo 0x60B1 = 0xB1 ∧ crcHi 0x60B1 = 0x60 := by
  decide +kernel

/-- Settles O13: CRC.READ's effect, and for the rule's sequence the run of CRC.SEQ, which O59 gives. -/
theorem crcReadReturnsCrcReg : Obligations.CrcReadReturnsCrcReg := by
  refine fun s => ⟨?_, ?_⟩
  · rw [exec_crcRead, crcLo_eq_ofNat, crcHi_eq_ofNat]
  · obtain ⟨-, -, -, -, hrun, -⟩ := pseudoInstructionsExpand [0x02, 0x00, 0xFE] 0 s
    obtain ⟨hcrc, hlo, hhi⟩ := crc16_poll
    rw [hcrc, hlo, hhi, List.append_assoc] at hrun
    exact hrun

/-- The whole next state of CRC.GEN on a sequence that can be written (R127). -/
theorem exec_crcGen {seq : List Byte} (s : State) (h : seq.length ≤ 65535) :
    exec (.crcGen seq) s = .next { s with respPort := s.respPort ++ [0x00, crcLo (crc16 seq), crcHi (crc16 seq)] } :=
  exec_of_wellFormed (.crcGen seq) s (seqFits_iff.mpr h)

/-- The whole next state of CRC.CHECK on a sequence that can be written (R128). -/
theorem exec_crcCheck {seq : List Byte} (s : State) (h : seq.length ≤ 65535) :
    exec (.crcCheck seq) s = .next { s with respPort := s.respPort ++ [0x00, okByte (crcValid seq)] } :=
  exec_of_wellFormed (.crcCheck seq) s (seqFits_iff.mpr h)

theorem exec_crcCheck_of_crcValid {seq : List Byte} {passed : Bool} (s : State) (h : seq.length ≤ 65535)
    (hvalid : crcValid seq = passed) :
    exec (.crcCheck seq) s = .next { s with respPort := s.respPort ++ [0x00, okByte passed] } := by
  rw [exec_crcCheck s h, hvalid]

/-- Settles O15: the answer is the validator's; whatever the length byte, `crcValid_frame_iff` names the pair that
passes. -/
theorem crcCheckReportsTheValidator : Obligations.CrcCheckReportsTheValidator := by
  refine fun seq s h => ⟨exec_crcCheck s h, fun hshort => exec_crcCheck_of_crcValid s h (crcValid_of_short hshort),
    fun len => ⟨crcLo (crc16 [0x02, len, 0xFE]), crcHi (crc16 [0x02, len, 0xFE]), ?_⟩, ?_, ⟨_, rfl, rfl⟩, ?_, ?_⟩
  · exact exec_crcCheck_of_crcValid s (by simp) ((crcValid_frame_iff 0x02 len _ 0xFE _ []).mpr ⟨rfl, rfl⟩)
  · exact exec_crcCheck_of_crcValid (passed := true) s (by decide) (by decide +kernel)
  · exact exec_crcCheck_of_crcValid (passed := true) s (by decide) (by decide +kernel)
  · exact exec_crcCheck_of_crcValid (passed := false) s (by decide) (by decide +kernel)

/-! ### The CRC16 frame (R122, R127, R141) -/

/-- The CRC16 frame, byte by byte. -/
theorem encodeCrc_eq_cons (dest src header : Byte) (data : List Byte) :
    encodeCrc dest src header data =
      dest :: lengthByte data :: crcLo (crc16 ([dest, lengthByte data, header] ++ data)) :: header ::
        (data ++ [crcHi (crc16 ([dest, lengthByte data, header] ++ data))]) := rfl

theorem encodeCrc_getD_two (dest src header : Byte) (data : List Byte) :
    (encodeCrc dest src header data).getD 2 0 = crcLo (crc16 ([dest, lengthByte data, header] ++ data)) := rfl

theorem encodeCrc_getD_last (dest src header : Byte) (data : List Byte) :
    (encodeCrc dest src header data).getD (data.length + 4) 0 =
      crcHi (crc16 ([dest, lengthByte data, header] ++ data)) := by
  simp [encodeCrc_eq_cons]

/-- Settles O19: the positions are those of `encodeCrc_eq_cons`, in which the source does not occur. -/
theorem crcFrameLayout : Obligations.CrcFrameLayout := by
  intro c dest src other header data s hdata
  refine ⟨crcLo_toNat c, crcHi_toNat c, ?_, rfl, rfl, lengthByte_toNat hdata, encodeCrc_getD_two dest src header data,
    rfl, ?_, encodeCrc_getD_last dest src header data, exec_crcRead s, exec_crcGen s (by omega)⟩
  · simp [encodeCrc_eq_cons]
  · simp [encodeCrc_eq_cons]

/-- Settles O14: `exec_crcGen`; on a frame's covered bytes its answer is what `encodeCrc` puts at index 2 and last. -/
theorem crcGenReturnsTheSequenceCrc : Obligations.CrcGenReturnsTheSequenceCrc := by
  refine fun seq s h => ⟨exec_crcGen s h, exec_crcGen s (by decide), ?_, fun dest src header data hdata => ?_⟩
  · obtain ⟨hcrc, hlo, hhi⟩ := crc16_poll
    rw [exec_crcGen s (by decide), hcrc, hlo, hhi]
  · rw [encodeCrc_getD_two, encodeCrc_getD_last]
    exact exec_crcGen s (by simp only [List.cons_append, List.nil_append, List.length_cons]; omega)

end Sys2Proof.Machine
end

section
/-! PROOFS. The codec family (spec 42): DECODE on a buffer that holds a whole frame, DECODE on a frame laid out by an
encoder, and the responses of ENC.ADD, ENC.CRC and DEC. -/

namespace Sys2Proof.Machine

/-! ### DECODE on a buffer (R144 to R149, R203) -/

theorem decodeFrame_eq_partial_iff (buf : List Byte) : decodeFrame buf = .partialMessage ↔ holdsNoWholeFrame buf := by
  refine ⟨fun h => ?_, decodeFrame_of_partial⟩
  by_contra hwhole
  exact validateFrame_ne_partial _ (decodeFrame_of_whole hwhole ▸ h)

/-- Settles O23: the condition written out is `holdsNoWholeFrame`. -/
theorem decodePartialCondition : Obligations.DecodePartialCondition := decodeFrame_eq_partial_iff

theorem not_holdsNoWholeFrame_iff {buf : List Byte} :
    ¬ holdsNoWholeFrame buf ↔ 2 ≤ buf.length ∧ (buf.getD 1 0).toNat + 5 ≤ buf.length := by
  rw [not_or, not_lt, not_lt]

/-- DECODE reads nothing after the candidate frame at the head (R146). -/
theorem decodeFrame_of_same_head {buf other : List Byte} (hbuf : ¬ holdsNoWholeFrame buf)
    (hhead : other.take ((buf.getD 1 0).toNat + 5) = buf.take ((buf.getD 1 0).toNat + 5)) :
    decodeFrame other = decodeFrame buf := by
  have hlen : other.getD 1 0 = buf.getD 1 0 := by
    rw [← getD_take_of_lt (show 1 < (buf.getD 1 0).toNat + 5 by omega), hhead, getD_take_of_lt (by omega)]
  have hother : ¬ holdsNoWholeFrame other := by
    have hcount := congrArg List.length hhead
    rw [not_holdsNoWholeFrame_iff] at hbuf ⊢
    rw [List.length_take, List.length_take] at hcount
    rw [hlen]
    omega
  rw [decodeFrame_of_whole hother, decodeFrame_of_whole hbuf, hlen, hhead]

/-- Settles O24: the count is that of `decodeFrame_cases`, and the bytes kept are the head that DECODE reads. -/
theorem decodeConsumesExactlyOneFrame : Obligations.DecodeConsumesExactlyOneFrame := by
  intro buf rest hdecode
  rcases decodeFrame_cases buf with ⟨-, hpart⟩ | ⟨hwhole, n, rfl, hle, hout⟩
  · exact absurd hpart hdecode
  · refine ⟨hout, hle, decodeFrame_of_same_head hwhole ?_⟩
    rw [List.take_append_of_le_length (by rw [List.length_take_of_le hle]), List.take_take, min_self]

theorem decodeFrame_append {buf : List Byte} (rest : List Byte) (h : decodeFrame buf ≠ .partialMessage) :
    decodeFrame (buf ++ rest) = decodeFrame buf := by
  rw [ne_eq, decodeFrame_eq_partial_iff] at h
  exact decodeFrame_of_same_head h (List.take_append_of_le_length (not_holdsNoWholeFrame_iff.mp h).2)

theorem sumValid_eq_false_iff (f : List Byte) : sumValid f = false ↔ sum8 f ≠ 0 := by
  rw [← Bool.not_eq_true, sumValid_iff]

/-- A frame that sums to 0 is additive, with byte 2 as its source (R147). -/
theorem validateFrame_of_sum {f : List Byte} (h : sum8 f = 0) :
    validateFrame f = .ok (frameMessage f (f.getD 2 0) .additive) f.length :=
  if_pos ((sumValid_iff f).mpr h)

/-- A frame that fails the additive test and passes CRC_VALID is a CRC16 frame from the host (R148). -/
theorem validateFrame_of_crc {f : List Byte} (hsum : sum8 f ≠ 0) (hcrc : crcValid f = true) :
    validateFrame f = .ok (frameMessage f hostAddr .crc16) f.length := by
  rw [validateFrame, if_neg (mt (sumValid_iff f).mp hsum), if_pos hcrc]

/-- A frame is a checksum error exactly when both tests fail (R149). -/
theorem validateFrame_eq_checksumError_iff (f : List Byte) :
    validateFrame f = .checksumError f.length ↔ sum8 f ≠ 0 ∧ crcValid f = false := by
  by_cases hsum : sum8 f = 0
  · simp [validateFrame_of_sum, hsum]
  · cases hcrc : crcValid f
    · simp [validateFrame, sumValid_iff, hcrc]
    · simp [validateFrame_of_crc hsum hcrc]

/-- Where the length byte counts the frame's data, they are that many bytes from byte 4 on (R65). -/
theorem frameMessage_of_length {f : List Byte} (hf : f.length = (f.getD 1 0).toNat + 5) (source : Byte)
    (scheme : ChecksumType) :
    frameMessage f source scheme =
      { destination := f.getD 0 0, length := f.getD 1 0, source := source, header := f.getD 3 0,
        data := (f.drop 4).take (f.getD 1 0).toNat, checksumType := scheme } := by
  rw [frameMessage, show f.length - 1 - 4 = (f.getD 1 0).toNat by omega]

/-- The candidate frame has the length that its own length byte asks for (R145, R146). -/
theorem length_candidate {buf : List Byte} (hle : (buf.getD 1 0).toNat + 5 ≤ buf.length) :
    (buf.take ((buf.getD 1 0).toNat + 5)).length =
      ((buf.take ((buf.getD 1 0).toNat + 5)).getD 1 0).toNat + 5 := by
  rw [List.length_take_of_le hle, getD_take_of_lt (by omega)]

/-- Settles O25: below a whole frame `decodeFrame_of_partial`, else the candidate frame's validation, case by case. -/
theorem decodeChecksInOrder : Obligations.DecodeChecksInOrder := by
  rintro buf f n rfl rfl
  have hdecode (h2 : 2 ≤ buf.length) (hle : (buf.getD 1 0).toNat + 5 ≤ buf.length) :=
    decodeFrame_of_whole (not_holdsNoWholeFrame_iff.mpr ⟨h2, hle⟩)
  refine ⟨fun h => decodeFrame_of_partial (.inl h), fun _ h => decodeFrame_of_partial (.inr h),
    fun h2 hle hsum => ?_, fun h2 hle hsum hcrc => ?_, fun h2 hle hsum hcrc => ?_⟩
  · rw [hdecode h2 hle, validateFrame_of_sum ((sum8_eq_zero_iff _).mpr hsum),
      frameMessage_of_length (length_candidate hle), List.length_take_of_le hle]
  · rw [hdecode h2 hle, validateFrame_of_crc (mt (sum8_eq_zero_iff _).mp hsum) hcrc,
      frameMessage_of_length (length_candidate hle), List.length_take_of_le hle]
    rfl
  · rw [hdecode h2 hle,
      (validateFrame_eq_checksumError_iff _).mpr ⟨mt (sum8_eq_zero_iff _).mp hsum, hcrc⟩,
      List.length_take_of_le hle]

/-- A whole frame, whatever follows it, decodes to its validation. -/
theorem decodeFrame_frame_append {f : List Byte} (hf : f.length = (f.getD 1 0).toNat + 5) (rest : List Byte) :
    decodeFrame (f ++ rest) = validateFrame f := by
  have hwhole : ¬ holdsNoWholeFrame f := not_holdsNoWholeFrame_iff.mpr ⟨by omega, hf.ge⟩
  have hdecode : decodeFrame f = validateFrame f := by rw [decodeFrame_of_whole hwhole, ← hf, List.take_length]
  rw [decodeFrame_append rest (hdecode ▸ validateFrame_ne_partial f), hdecode]

theorem decodeFrame_frame {f : List Byte} (hf : f.length = (f.getD 1 0).toNat + 5) :
    decodeFrame f = validateFrame f := by
  simpa using decodeFrame_frame_append hf []

/-! ### Frames as an encoder lays them out (R60, R61)

The two schemes differ in byte 2 and in the last byte only. -/

/-- The bytes of a frame with `third` at index 2 and `last` at its end. -/
def frameBytes (dest third header : Byte) (data : List Byte) (last : Byte) : List Byte :=
  [dest, lengthByte data, third, header] ++ data ++ [last]

theorem encodeAdd_eq_frameBytes (dest src header : Byte) (data : List Byte) :
    encodeAdd dest src header data =
      frameBytes dest src header data (checksum ([dest, lengthByte data, src, header] ++ data)) := rfl

theorem encodeCrc_eq_frameBytes (dest src header : Byte) (data : List Byte) :
    encodeCrc dest src header data =
      frameBytes dest (crcLo (crc16 ([dest, lengthByte data, header] ++ data))) header data
        (crcHi (crc16 ([dest, lengthByte data, header] ++ data))) := rfl

section
variable (dest third header : Byte) (data : List Byte) (last : Byte)

@[simp] theorem frameBytes_length : (frameBytes dest third header data last).length = data.length + 5 := by
  simp [frameBytes]

@[simp] theorem frameBytes_getLast? : (frameBytes dest third header data last).getLast? = some last :=
  List.getLast?_concat

@[simp] theorem frameBytes_dropLast_append (x : Byte) :
    (frameBytes dest third header data last).dropLast ++ [x] = frameBytes dest third header data x := by
  rw [frameBytes, List.dropLast_concat, frameBytes]

theorem sum8_frameBytes_eq_zero_iff :
    sum8 (frameBytes dest third header data last) = 0 ↔
      last = checksum ([dest, lengthByte data, third, header] ++ data) := by
  rw [← sumValid_iff, frameBytes, sumValid_append_single_iff]

theorem crcValid_frameBytes_iff :
    crcValid (frameBytes dest third header data last) = true ↔
      third = crcLo (crc16 ([dest, lengthByte data, header] ++ data)) ∧
        last = crcHi (crc16 ([dest, lengthByte data, header] ++ data)) :=
  crcValid_frame_iff ..

/-- Only the CRC's high byte passes as the last byte (R129). -/
theorem crcValid_frameBytes_of_last {last : Byte}
    (hlast : last ≠ crcHi (crc16 ([dest, lengthByte data, header] ++ data))) :
    crcValid (frameBytes dest third header data last) = false :=
  Bool.eq_false_iff.mpr fun hvalid =>
    have ⟨_, heq⟩ := (crcValid_frameBytes_iff dest third header data last).mp hvalid
    hlast heq

theorem frameMessage_frameBytes (source : Byte) (scheme : ChecksumType) :
    frameMessage (frameBytes dest third header data last) source scheme =
      { destination := dest, length := lengthByte data, source := source, header := header, data := data,
        checksumType := scheme } := by
  simp [frameMessage, frameBytes]

variable {data} (hdata : data.length ≤ 255)
include hdata

/-- The length byte of up to 255 data bytes gives the frame's own length (R62). -/
theorem frameBytes_length_eq_lengthByte :
    (frameBytes dest third header data last).length =
      ((frameBytes dest third header data last).getD 1 0).toNat + 5 := by
  rw [frameBytes_length, show (frameBytes dest third header data last).getD 1 0 = lengthByte data from rfl,
    lengthByte_toNat hdata]

/-- A frame that sums to 0 decodes as additive, with byte 2 as its source, whatever follows it (R147, R150). -/
theorem decodeFrame_frameBytes_of_sum (hsum : sum8 (frameBytes dest third header data last) = 0) (rest : List Byte) :
    decodeFrame (frameBytes dest third header data last ++ rest) =
      .ok { destination := dest, length := lengthByte data, source := third, header := header, data := data,
            checksumType := .additive } (data.length + 5) := by
  rw [decodeFrame_frame_append (frameBytes_length_eq_lengthByte dest third header last hdata),
    validateFrame_of_sum hsum, frameMessage_frameBytes, frameBytes_length]
  rfl

/-- A frame that does not sum to 0 and passes CRC_VALID decodes with source 1, whatever follows it (R148). -/
theorem decodeFrame_frameBytes_of_crc (hsum : sum8 (frameBytes dest third header data last) ≠ 0)
    (hcrc : crcValid (frameBytes dest third header data last) = true) (rest : List Byte) :
    decodeFrame (frameBytes dest third header data last ++ rest) =
      .ok { destination := dest, length := lengthByte data, source := 0x01, header := header, data := data,
            checksumType := .crc16 } (data.length + 5) := by
  rw [decodeFrame_frame_append (frameBytes_length_eq_lengthByte dest third header last hdata),
    validateFrame_of_crc hsum hcrc, frameMessage_frameBytes, frameBytes_length]
  rfl

theorem decodeFrame_frameBytes_of_neither (hsum : sum8 (frameBytes dest third header data last) ≠ 0)
    (hcrc : crcValid (frameBytes dest third header data last) = false) :
    decodeFrame (frameBytes dest third header data last) = .checksumError (data.length + 5) := by
  rw [decodeFrame_frame (frameBytes_length_eq_lengthByte dest third header last hdata),
    (validateFrame_eq_checksumError_iff _).mpr ⟨hsum, hcrc⟩, frameBytes_length]

end

/-! ### Round trips (R150, R152, R153) -/

/-- Settles O28: an encoded additive frame sums to 0, and the additive test runs first. -/
theorem additiveFramesRoundTrip : Obligations.AdditiveFramesRoundTrip := fun dest src header data rest hdata =>
  decodeFrame_frameBytes_of_sum dest src header _ hdata (sum8_encodeAdd dest src header data) rest

theorem crcValid_encodeCrc (dest src header : Byte) (data : List Byte) :
    crcValid (encodeCrc dest src header data) = true :=
  (crcValid_frameBytes_iff ..).mpr ⟨rfl, rfl⟩

/-- R153's frame whose bytes happen to sum to 0. -/
theorem encodeCrc_sums_to_zero_example (src : Byte) :
    encodeCrc 0x02 src 0x01 [0x91] = [0x02, 0x01, 0xF1, 0x01, 0x91, 0x7A] := by
  change encodeCrc 0x02 0x00 0x01 [0x91] = _
  decide +kernel

/-- The CRC of zero bytes is 0, so the CRC16 frame of an all-zero message is all zero (R143). -/
theorem encodeCrc_zero (src : Byte) : encodeCrc 0x00 src 0x00 [] = [0x00, 0x00, 0x00, 0x00, 0x00] := by
  rw [encodeCrc_eq_cons, show [0x00, lengthByte [], 0x00] ++ [] = List.replicate 3 (0x00 : Byte) from rfl,
    crc16_replicate_zero]
  decide

/-- Settles O29: an encoded CRC16 frame passes CRC_VALID, so its sum alone decides how it decodes. -/
theorem crcFramesRoundTripUnlessTheySumToZero : Obligations.CrcFramesRoundTripUnlessTheySumToZero := by
  refine ⟨fun dest src header data rest hdata => ⟨fun hsum => ?_, fun hsum => ?_⟩,
    fun src => ⟨encodeCrc_sums_to_zero_example src, by decide, encodeCrc_zero src, by decide⟩,
    fun f _ hf hvalid => ?_⟩
  · exact decodeFrame_frameBytes_of_crc dest _ header _ hdata hsum (crcValid_encodeCrc dest src header data) rest
  · exact decodeFrame_frameBytes_of_sum dest _ header _ hdata hsum rest
  · rw [decodeFrame_frame hf, validateFrame_of_sum ((sumValid_iff f).mp hvalid)]
    exact ⟨_, rfl, rfl, rfl⟩

/-! ### A changed last byte (R154) -/

/-- Settles O30: with the other bytes fixed, the checksum alone is the last byte that passes the additive test
(`sum8_frameBytes_eq_zero_iff`), and the CRC's high byte the only one that can pass CRC_VALID
(`crcValid_frameBytes_of_last`). -/
theorem changedLastByteIsDetectedExceptOneValue : Obligations.ChangedLastByteIsDetectedExceptOneValue := by
  refine ⟨fun dest src header x data hdata => ?_, fun f _ hf => ?_, by decide +kernel, by decide +kernel⟩
  · simp only [encodeAdd_eq_frameBytes, encodeCrc_eq_frameBytes, frameBytes_dropLast_append, frameBytes_getLast?,
      sumValid_eq_false_iff, ne_eq, Option.some.injEq]
    refine ⟨fun hx => ?_, fun hx => ?_, fun hsum => ?_, fun hsum y hy => ?_⟩
    · have hsum := mt (sum8_frameBytes_eq_zero_iff dest src header data x).mp hx
      exact ⟨hsum, decodeFrame_frameBytes_of_neither dest src header x hdata hsum⟩
    · have hcrc := fun third => crcValid_frameBytes_of_last dest third header data hx
      refine ⟨hcrc _, fun hsum => decodeFrame_frameBytes_of_neither dest _ header x hdata hsum (hcrc _), fun hsum => ?_⟩
      exact ⟨_, by simpa using decodeFrame_frameBytes_of_sum dest _ header x hdata hsum [], rfl⟩
    · rw [sum8_frameBytes_eq_zero_iff] at hsum
      simp only [sum8_frameBytes_eq_zero_iff]
      exact ⟨_, ⟨Ne.symm hsum, rfl⟩, fun y hy => hy.2⟩
    · rw [sum8_frameBytes_eq_zero_iff] at hsum ⊢
      exact hsum ▸ hy
  · rw [decodeFrame_frame hf, validateFrame_eq_checksumError_iff, sumValid_eq_false_iff]

/-! ### ENC.ADD, ENC.CRC and DEC (R142, R143, R151) -/

theorem withSeq16_of_not_fits {seq : List Byte} (body : Result) (h : seqFits seq = false) :
    withSeq16 seq body = .refused .sequenceTooLong :=
  if_neg (Bool.eq_false_iff.mp h)

theorem withMsg_of_not_fits {data : List Byte} (body : Result) (h : dataFits data = false) :
    withMsg data body = .refused .dataTooLong :=
  if_neg (Bool.eq_false_iff.mp h)

/-- Settles O22: an over-long operand stops at its own check, and what can be written has its effect. -/
theorem onlyOverlongOperandsAreRefused : Obligations.OnlyOverlongOperandsAreRefused := by
  refine fun i s => ⟨fun h => ?_, fun h => ⟨_, exec_of_wellFormed i s h⟩⟩
  cases i with
  | sumGen | sumCheck | crcGen | crcCheck | dec | raFeed => exact .inl (withSeq16_of_not_fits _ h)
  | encAdd | encCrc => exact .inr (withMsg_of_not_fits _ h)
  | sumInit | sumAdd | sumRead | crcInit | crcUpdate | crcRead | raSetaddr | raGetaddr | raFlush | raLevel => cases h

/-- The whole next state of ENC.ADD on data that can be written (R142). -/
theorem exec_encAdd (dest src header : Byte) {data : List Byte} (s : State) (h : data.length ≤ 255) :
    exec (.encAdd dest src header data) s =
      .next { s with respPort := s.respPort ++ 0x00 :: encodeAdd dest src header data } :=
  exec_of_wellFormed (.encAdd dest src header data) s (dataFits_iff.mpr h)

/-- The whole next state of ENC.CRC on data that can be written (R143). -/
theorem exec_encCrc (dest src header : Byte) {data : List Byte} (s : State) (h : data.length ≤ 255) :
    exec (.encCrc dest src header data) s =
      .next { s with respPort := s.respPort ++ 0x00 :: encodeCrc dest src header data } :=
  exec_of_wellFormed (.encCrc dest src header data) s (dataFits_iff.mpr h)

theorem encodeAdd_length (dest src header : Byte) (data : List Byte) :
    (encodeAdd dest src header data).length = data.length + 5 := frameBytes_length ..

theorem encodeCrc_length (dest src header : Byte) (data : List Byte) :
    (encodeCrc dest src header data).length = data.length + 5 := frameBytes_length ..

/-- The bytes that the checksum covers are all but the last (R140). -/
theorem encodeAdd_take (dest src header : Byte) (data : List Byte) :
    (encodeAdd dest src header data).take (data.length + 4) = [dest, lengthByte data, src, header] ++ data :=
  List.take_left' (by simp)

/-- Settles O20: a decoded command can be written, and where the covered bytes sum to 0 their checksum is 0. -/
theorem encAddReturnsTheAdditiveFrame : Obligations.EncAddReturnsTheAdditiveFrame := by
  refine ⟨fun bytes rest dest src header data h => dataFits_iff.mp (decode_command h).1,
    fun dest src header data s h => ⟨exec_encAdd dest src header s h, fun hnil => ?_, fun hmax => ?_, fun hsum => ?_,
      by decide, exec_encAdd 0x02 0x01 0xFE s (by decide)⟩⟩
  · rw [encodeAdd_length, hnil, List.length_nil]
  · rw [encodeAdd_length, hmax]
  · rw [encodeAdd_take, ← sum8_eq_zero_iff] at hsum
    rw [encodeAdd_eq_frameBytes, frameBytes_getLast?, checksum_of_sum8_eq_zero hsum]

/-- R143's poll frame, in which the source does not occur. -/
theorem encodeCrc_poll (src : Byte) : encodeCrc 0x02 src 0xFE [] = [0x02, 0x00, 0xB1, 0xFE, 0x60] := by
  obtain ⟨hcrc, hlo, hhi⟩ := crc16_poll
  rw [encodeCrc_eq_cons, show [0x02, lengthByte [], 0xFE] ++ [] = [0x02, 0x00, (0xFE : Byte)] from rfl, hcrc, hlo, hhi]
  rfl

/-- Settles O21: the response is the frame, in which the source does not occur; the all-zero frame sums to 0. -/
theorem encCrcReturnsTheCrcFrame : Obligations.EncCrcReturnsTheCrcFrame := by
  refine fun dest src other header data s h => ⟨exec_encCrc dest src header s h, ?_, fun hnil => ?_, fun hmax => ?_,
    encodeCrc_zero src, ?_, ?_⟩
  · rw [exec_encCrc dest src header s h, exec_encCrc dest other header s h]
    rfl
  · rw [encodeCrc_length, hnil, List.length_nil]
  · rw [encodeCrc_length, hmax]
  · rw [encodeCrc_zero]
    exact ⟨_, rfl, rfl⟩
  · rw [exec_encCrc 0x02 0x09 0xFE s (by decide), encodeCrc_poll]

/-- The whole next state of DEC on a sequence that can be written (R151). -/
theorem exec_dec {seq : List Byte} (s : State) (h : seq.length ≤ 65535) :
    exec (.dec seq) s = .next { s with respPort := s.respPort ++ decodeResponse (decodeFrame seq) } :=
  exec_of_wellFormed (.dec seq) s (seqFits_iff.mpr h)

theorem ChecksumType.code_eq (scheme : ChecksumType) :
    scheme.code = if scheme = .additive then 0x00 else 0x01 := by
  cases scheme <;> rfl

/-- DECODE reads R143's poll frame back, with source 1. -/
theorem decodeFrame_poll :
    decodeFrame [0x02, 0x00, 0xB1, 0xFE, 0x60] = .ok ⟨0x02, 0x00, 0x01, 0xFE, [], .crc16⟩ 5 := by
  decide +kernel

/-- Settles O27: `exec_dec` for each outcome of DECODE; a length byte of 255 asks for 260 bytes. -/
theorem decReportsTheDecodeOutcome : Obligations.DecReportsTheDecodeOutcome := by
  refine fun seq s h => ⟨?_, rfl, fun _ => rfl, rfl, fun hlen hcount => ?_, fun hlen hcount => ?_,
    fun rest => decodeFrame_append rest, ?_⟩
  · rw [exec_dec s h]
    cases decodeFrame seq with
    | partialMessage => rfl
    | checksumError n => rfl
    | ok m n => simp only [← ChecksumType.code_eq]; rfl
  · refine decodeFrame_of_partial (.inr ?_)
    rw [hlen, hcount]
    decide
  · rw [ne_eq, decodeFrame_eq_partial_iff, holdsNoWholeFrame, hlen, hcount]
    decide
  · rw [exec_dec s (by decide), decodeFrame_poll]
    rfl

end Sys2Proof.Machine
end

section
/-! PROOFS. The reassembler family (spec 43): RA_FEED on a buffer, on an appended chunk, on a frame at the head and byte
by byte, and the whole next state of the unit's five commands. -/

namespace Sys2Proof.Machine

/-! ### RA_FEED by the outcome of its first decode (R171 to R174) -/

/-- What a FEED returns when messages were accepted before it. -/
def FeedResult.after (r : FeedResult) (earlier : List Message) : FeedResult :=
  { r with messages := earlier ++ r.messages }

section
variable (r : FeedResult) (earlier first : List Message)

@[simp] theorem FeedResult.after_rxbuf : (r.after earlier).rxbuf = r.rxbuf := rfl
@[simp] theorem FeedResult.after_messages : (r.after earlier).messages = earlier ++ r.messages := rfl
@[simp] theorem FeedResult.after_error : (r.after earlier).error = r.error := rfl

@[simp] theorem FeedResult.after_after : (r.after earlier).after first = r.after (first ++ earlier) := by
  simp [FeedResult.after]

end

/-- RA_FEED sees only the buffer with the chunk appended, not where the chunk begins (R171). -/
theorem raFeed_eq_raFeed_nil (own : Byte) (rxbuf chunk : List Byte) :
    raFeed own rxbuf chunk = raFeed own [] (rxbuf ++ chunk) := rfl

section
variable {own : Byte} {rxbuf chunk : List Byte}

theorem raFeed_of_partial (h : holdsNoWholeFrame (rxbuf ++ chunk)) :
    raFeed own rxbuf chunk = { rxbuf := rxbuf ++ chunk, messages := [], error := false } :=
  feedLoop_partial _ h

/-- The pass bound of the loop is enough, and any larger one gives the same (R172). -/
theorem feedLoop_eq_raFeed {passes : Nat} (h : (rxbuf ++ chunk).length ≤ 5 * passes + 4) :
    feedLoop own passes (rxbuf ++ chunk) = raFeed own rxbuf chunk :=
  feedLoop_bound own _ _ _ h (by rw [rxAppend]; omega)

theorem raFeed_of_ok {m : Message} {n : Nat} (h : decodeFrame (rxbuf ++ chunk) = .ok m n) :
    raFeed own rxbuf chunk = (raFeed own [] ((rxbuf ++ chunk).drop n)).after (accept own m) := by
  have hdrop : ((rxbuf ++ chunk).drop n).length ≤ (rxbuf ++ chunk).length := by rw [List.length_drop]; omega
  rw [← feedLoop_eq_raFeed (passes := (rxbuf ++ chunk).length + 1) (by omega), feedLoop_ok _ h,
    ← feedLoop_eq_raFeed (passes := (rxbuf ++ chunk).length) (by rw [List.nil_append]; omega)]
  rfl

theorem raFeed_of_error {n : Nat} (h : decodeFrame (rxbuf ++ chunk) = .checksumError n) :
    raFeed own rxbuf chunk = { rxbuf := [], messages := [], error := true } := by
  rw [← feedLoop_eq_raFeed (passes := (rxbuf ++ chunk).length + 1) (by omega), feedLoop_error _ h]

end

/-- Settles O31: one lemma per outcome of the decode. -/
theorem feedDecodesFromTheHead : Obligations.FeedDecodesFromTheHead := by
  intro own rxbuf chunk
  cases h : decodeFrame (rxbuf ++ chunk) with
  | partialMessage => exact raFeed_of_partial ((decodeFrame_eq_partial_iff _).mp h)
  | ok m n => exact raFeed_of_ok h
  | checksumError n => exact raFeed_of_error h

/-- Settles O32: a fifth of the bytes is enough by `feedLoop_bound`, and each message took 5 of them. -/
theorem feedLoopEnds : Obligations.FeedLoopEnds := by
  intro own rxbuf chunk passes h
  rw [← List.length_append] at h ⊢
  exact ⟨feedLoop_eq_raFeed (by omega), feedLoop_messages_length own _ (rxbuf ++ chunk)⟩

/-! ### RA_FEED on a longer chunk (R174, R175, R178) -/

/-- Bytes behind a chunk: after an error they are discarded with the rest of the chunk (R174), else RA_FEED goes on with
the buffer it had reached. -/
theorem raFeed_append (own : Byte) (rxbuf front back : List Byte) :
    raFeed own rxbuf (front ++ back) =
      if (raFeed own rxbuf front).error then raFeed own rxbuf front
      else (raFeed own (raFeed own rxbuf front).rxbuf back).after (raFeed own rxbuf front).messages := by
  rw [raFeed_eq_raFeed_nil own rxbuf front, raFeed_eq_raFeed_nil own rxbuf (front ++ back), ← List.append_assoc]
  generalize rxbuf ++ front = buf
  induction buf using decode_induction with
  | partialBuf buf h => rw [raFeed_of_partial (rxbuf := []) (chunk := buf) h]; rfl
  | ok buf m n h h5 hle ih =>
    have hmore : decodeFrame (buf ++ back) = .ok m n := by rw [decodeFrame_append back (by rw [h]; nofun), h]
    rw [raFeed_of_ok (rxbuf := []) (chunk := buf) h, raFeed_of_ok (rxbuf := []) (chunk := buf ++ back) hmore,
      List.nil_append, List.nil_append, List.drop_append_of_le_length hle, ih]
    by_cases he : (raFeed own [] (buf.drop n)).error = true
    · rw [if_pos he, if_pos (by exact he)]
    · rw [if_neg he, if_neg (by exact he)]
      exact FeedResult.after_after ..
  | error buf n h h5 hle =>
    have hmore : decodeFrame (buf ++ back) = .checksumError n := by rw [decodeFrame_append back (by rw [h]; nofun), h]
    rw [raFeed_of_error (rxbuf := []) (chunk := buf) h, raFeed_of_error (rxbuf := []) (chunk := buf ++ back) hmore]
    rfl

theorem raFeed_append_of_error {own : Byte} {rxbuf front : List Byte} (back : List Byte)
    (h : (raFeed own rxbuf front).error = true) : raFeed own rxbuf (front ++ back) = raFeed own rxbuf front := by
  rw [raFeed_append, if_pos h]

theorem raFeed_append_of_no_error {own : Byte} {rxbuf front : List Byte} (back : List Byte)
    (h : (raFeed own rxbuf front).error = false) :
    raFeed own rxbuf (front ++ back) =
      (raFeed own (raFeed own rxbuf front).rxbuf back).after (raFeed own rxbuf front).messages := by
  rw [raFeed_append, if_neg (by rw [h]; decide)]

/-- A frame that fails at the head of an empty buffer ends the FEED, whatever follows it. -/
theorem raFeed_failing_frame_append {own : Byte} {bad : List Byte} {n : Nat} (tail : List Byte)
    (h : decodeFrame bad = .checksumError n) :
    raFeed own [] (bad ++ tail) = { rxbuf := [], messages := [], error := true } :=
  raFeed_of_error (n := n) (by rw [List.nil_append, decodeFrame_append tail (by rw [h]; nofun), h])

/-- A frame that decodes at the head of an empty buffer is filtered and dropped, and what follows it is fed. -/
theorem raFeed_frame_append {own : Byte} {good : List Byte} {m : Message} (tail : List Byte)
    (h : decodeFrame good = .ok m good.length) :
    raFeed own [] (good ++ tail) = (raFeed own [] tail).after (accept own m) := by
  have hmore : decodeFrame ([] ++ (good ++ tail)) = .ok m good.length := by
    rw [List.nil_append, decodeFrame_append tail (by rw [h]; nofun), h]
  rw [raFeed_of_ok hmore, List.nil_append, List.drop_left]

/-- RA_FEED of one whole frame leaves an empty buffer. -/
theorem raFeed_one_frame {own : Byte} {rxbuf chunk : List Byte} {m : Message}
    (h : decodeFrame (rxbuf ++ chunk) = .ok m (rxbuf ++ chunk).length) :
    raFeed own rxbuf chunk = { rxbuf := [], messages := accept own m, error := false } := by
  rw [raFeed_of_ok h, List.drop_length, raFeed_of_partial holdsNoWholeFrame_nil]
  simp [FeedResult.after]

theorem accept_of_destination {own : Byte} {m : Message} (h : m.destination = own) : accept own m = [m] := if_pos h

/-- Copies of one frame for this node give one message each. -/
theorem raFeed_messages_replicate {own : Byte} {good : List Byte} {m : Message}
    (h : decodeFrame good = .ok m good.length) (hm : m.destination = own) (k : Nat) :
    (raFeed own [] (List.replicate k good).flatten).messages = List.replicate k m := by
  induction k with
  | zero => rfl
  | succ k ih =>
    rw [List.replicate_succ, List.flatten_cons, raFeed_frame_append _ h, FeedResult.after_messages, ih,
      accept_of_destination hm]
    rfl

/-- FEEDs of chunks give what one FEED of their concatenation gives, or both meet an error (R178). -/
theorem feedChunks_eq_raFeed_or_error (own : Byte) {rxbuf : List Byte} (chunks : List (List Byte))
    (h : holdsNoWholeFrame rxbuf) :
    feedChunks own rxbuf chunks = raFeed own rxbuf chunks.flatten ∨
      ((feedChunks own rxbuf chunks).error = true ∧ (raFeed own rxbuf chunks.flatten).error = true) := by
  induction chunks generalizing rxbuf with
  | nil =>
    rw [List.flatten_nil, raFeed_of_partial (by rwa [List.append_nil]), List.append_nil]
    exact .inl rfl
  | cons chunk chunks ih =>
    rw [List.flatten_cons]
    cases he : (raFeed own rxbuf chunk).error with
    | true => exact .inr ⟨by simp [feedChunks, he], by rw [raFeed_append_of_error _ he, he]⟩
    | false =>
      rw [raFeed_append_of_no_error _ he, FeedResult.after_error]
      rcases ih (raFeed_holdsNoWholeFrame own rxbuf chunk) with heq | ⟨hlater, hflat⟩
      · exact .inl (by simp [feedChunks, FeedResult.after, he, heq])
      · exact .inr ⟨by simp [feedChunks, hlater], hflat⟩

/-- Settles O35: without an error every split gives the FEED of the concatenation; an error takes the rest of its own
FEED with it, and nothing of a later one. -/
theorem chunkBoundariesMatterOnlyAfterAnError : Obligations.ChunkBoundariesMatterOnlyAfterAnError := by
  refine ⟨fun own rxbuf chunks h he => ?_, fun own bad good m hbad hgood hm => ⟨?_, ?_⟩⟩
  · have heq : feedChunks own rxbuf chunks = raFeed own rxbuf chunks.flatten := by
      rcases feedChunks_eq_raFeed_or_error own chunks h with heq | ⟨herr, -⟩
      · exact heq
      · cases he.symm.trans herr
    refine ⟨heq, fun others hflat => ?_⟩
    rcases feedChunks_eq_raFeed_or_error own others h with hother | ⟨-, herr⟩
    · rw [hother, hflat, heq]
      exact ⟨rfl, rfl⟩
    · rw [hflat, ← heq, he] at herr
      cases herr
  · rw [raFeed_failing_frame_append good hbad]
  · have herr : raFeed own [] bad = { rxbuf := [], messages := [], error := true } := raFeed_of_error hbad
    have hok : raFeed own [] good = { rxbuf := [], messages := accept own m, error := false } := raFeed_one_frame hgood
    simp only [feedChunks, herr, hok, accept_of_destination hm, List.nil_append, List.append_nil]

/-! ### The byte-serial realisation (R177) -/

/-- One byte behind a buffer without a whole frame completes at most one frame, and that frame is the whole buffer. -/
theorem length_le_of_decode_append_byte {rxbuf : List Byte} {x : Byte} {m : Message} {n : Nat}
    (h : holdsNoWholeFrame rxbuf) (hok : decodeFrame (rxbuf ++ [x]) = .ok m n) : (rxbuf ++ [x]).length ≤ n := by
  obtain ⟨hn, hle, -⟩ := decodeFrame_ok hok
  rw [List.length_append, List.length_singleton] at hle ⊢
  have hlen : (rxbuf ++ [x]).getD 1 0 = rxbuf.getD 1 0 := List.getD_append _ _ _ _ (by omega)
  rw [hlen] at hn
  rcases h with h | h <;> omega

/-- One pass of the byte-serial process is a FEED of that byte, with the messages so far before its own. -/
theorem streamByte_eq_raFeed {own : Byte} {r : FeedResult} (x : Byte) (h : holdsNoWholeFrame r.rxbuf)
    (he : r.error = false) : streamByte own r x = (raFeed own r.rxbuf [x]).after r.messages := by
  cases hd : decodeFrame (r.rxbuf ++ [x]) with
  | partialMessage =>
    rw [raFeed_of_partial ((decodeFrame_eq_partial_iff _).mp hd)]
    simp [streamByte, rxAppend, hd, he, FeedResult.after]
  | ok m n =>
    have hdrop := List.drop_eq_nil_of_le (length_le_of_decode_append_byte h hd)
    rw [raFeed_of_ok hd, hdrop, raFeed_of_partial holdsNoWholeFrame_nil]
    simp [streamByte, rxAppend, rxConsume, hd, he, hdrop, FeedResult.after]
  | checksumError n =>
    rw [raFeed_of_error hd]
    simp [streamByte, rxAppend, rxClear, hd, he, FeedResult.after]

/-- In its discard mode the byte-serial process drops all that is left of the chunk. -/
theorem foldl_streamByte_of_error {own : Byte} {r : FeedResult} (chunk : List Byte) (he : r.error = true) :
    chunk.foldl (streamByte own) r = r := by
  induction chunk with
  | nil => rfl
  | cons x xs ih => rw [List.foldl_cons, streamByte, if_pos he, ih]

theorem foldl_streamByte {own : Byte} {r : FeedResult} (chunk : List Byte) (h : holdsNoWholeFrame r.rxbuf)
    (he : r.error = false) :
    chunk.foldl (streamByte own) r = (raFeed own r.rxbuf chunk).after r.messages := by
  induction chunk generalizing r with
  | nil =>
    rw [raFeed_of_partial (by rwa [List.append_nil]), List.foldl_nil]
    simp [FeedResult.after, ← he]
  | cons x xs ih =>
    rw [List.foldl_cons, streamByte_eq_raFeed x h he, ← List.singleton_append (l := xs)]
    cases hx : (raFeed own r.rxbuf [x]).error with
    | true => rw [foldl_streamByte_of_error (r := (raFeed own r.rxbuf [x]).after r.messages) xs hx,
        raFeed_append_of_error xs hx]
    | false =>
      rw [ih (r := (raFeed own r.rxbuf [x]).after r.messages) (raFeed_holdsNoWholeFrame own r.rxbuf [x]) hx,
        raFeed_append_of_no_error xs hx]
      simp only [FeedResult.after_rxbuf, FeedResult.after_messages, FeedResult.after_after]

theorem streamFeed_eq_raFeed (own : Byte) {rxbuf : List Byte} (chunk : List Byte) (h : holdsNoWholeFrame rxbuf) :
    streamFeed own rxbuf chunk = raFeed own rxbuf chunk :=
  foldl_streamByte chunk h rfl

/-- Settles O34: before each byte the buffer is one that RA_FEED leaves, of at most 259 bytes. -/
theorem streamingRealisationIsFeed : Obligations.StreamingRealisationIsFeed := by
  refine fun own rxbuf chunk h => ⟨streamFeed_eq_raFeed own chunk h, fun front x back _ => ?_⟩
  rw [streamFeed_eq_raFeed own front h, List.length_append]
  exact Nat.succ_le_succ (length_le_of_holdsNoWholeFrame (raFeed_holdsNoWholeFrame own rxbuf front))

/-! ### The unit's commands (R174 to R185) -/

/-- The response of RA.FEED by its bytes (R179). -/
theorem feedResponse_eq (r : FeedResult) :
    feedResponse r =
      [if r.error then 0x02 else 0x00, BitVec.ofNat 8 (r.messages.length % 256),
        BitVec.ofNat 8 (r.messages.length / 256)] ++ r.messages.flatMap messageRecord := rfl

theorem feedResponse_no_messages (rxbuf : List Byte) (error : Bool) :
    feedResponse { rxbuf := rxbuf, messages := [], error := error } = [if error then 0x02 else 0x00, 0x00, 0x00] := by
  simp [feedResponse_eq]

theorem feedResponse_one_message (rxbuf : List Byte) (m : Message) :
    feedResponse { rxbuf := rxbuf, messages := [m], error := false } = [0x00, 0x01, 0x00] ++ messageRecord m := by
  simp [feedResponse_eq]

/-- The whole next state of RA.FEED on a chunk that can be written (R179). -/
theorem exec_raFeed {chunk : List Byte} (s : State) {r : FeedResult} (h : chunk.length ≤ 65535)
    (hr : raFeed s.ownAddr s.rxbuf chunk = r) :
    exec (.raFeed chunk) s = .next { s with rxbuf := r.rxbuf, respPort := s.respPort ++ feedResponse r } := by
  subst hr
  exact exec_of_wellFormed (.raFeed chunk) s (seqFits_iff.mpr h)

/-- The whole next state of RA.SETADDR (R180). -/
theorem exec_raSetaddr (a : Byte) (s : State) :
    exec (.raSetaddr a) s = .next { s with ownAddr := a, respPort := s.respPort ++ [0x00] } :=
  exec_of_wellFormed (.raSetaddr a) s rfl

/-- The whole next state of RA.GETADDR (R181). -/
theorem exec_raGetaddr (s : State) :
    exec .raGetaddr s = .next { s with respPort := s.respPort ++ [0x00, s.ownAddr] } :=
  exec_of_wellFormed .raGetaddr s rfl

/-- The two bytes of the level: its 16 bits hold all that they show of the buffer's length. -/
theorem word16_level {s : State} {k : Nat} (hk : s.rxbuf.length = k) :
    word16 s.level.toNat = [BitVec.ofNat 8 (k % 256), BitVec.ofNat 8 (k / 256)] := by
  have hlo : k % 65536 % 256 = k % 256 := by omega
  have hhi : BitVec.ofNat 8 (k % 65536 / 256) = BitVec.ofNat 8 (k / 256) := by
    apply BitVec.eq_of_toNat_eq
    simp only [BitVec.toNat_ofNat]
    omega
  rw [word16, lo16, hi16, State.level, hk, BitVec.toNat_ofNat, hlo, hhi]

/-- The whole next state of RA.LEVEL on a buffer of `k` bytes (R182). -/
theorem exec_raLevel (s : State) {k : Nat} (hk : s.rxbuf.length = k) :
    exec .raLevel s =
      .next { s with respPort := s.respPort ++ [0x00, BitVec.ofNat 8 (k % 256), BitVec.ofNat 8 (k / 256)] } := by
  rw [← word16_level hk]
  exact exec_of_wellFormed .raLevel s rfl

/-- The whole next state of RA.FLUSH on a buffer of `k` bytes (R184). -/
theorem exec_raFlush (s : State) {k : Nat} (hk : s.rxbuf.length = k) :
    exec .raFlush s =
      .next { s with
        rxbuf := []
        respPort := s.respPort ++ [0x00, BitVec.ofNat 8 (k % 256), BitVec.ofNat 8 (k / 256)] } := by
  rw [← word16_level hk]
  exact exec_of_wellFormed .raFlush s rfl

theorem execAll_cons_of_next {i : Instr} {s t : State} (is : List Instr) (h : exec i s = .next t) :
    execAll (i :: is) s = execAll is t := by
  rw [execAll, h]

theorem execAll_singleton (i : Instr) (s : State) : execAll [i] s = exec i s := by
  rw [execAll]
  cases exec i s <;> rfl

/-- Settles O33: RA_FEED goes on behind the good bytes with an empty buffer, and meets the failing frame at its head. -/
theorem feedChecksumErrorClearsTheBuffer : Obligations.FeedChecksumErrorClearsTheBuffer := by
  intro good bad tail messages s hlen hgood hbad
  have hfeed : raFeed s.ownAddr s.rxbuf (good ++ bad ++ tail) =
      { rxbuf := [], messages := messages, error := true } := by
    rw [List.append_assoc, raFeed_append_of_no_error _ (by rw [hgood]), hgood, raFeed_failing_frame_append tail hbad]
    simp [FeedResult.after]
  have hexample : raFeed 0x02 [] [0x03, 0x00, 0x01, 0xFE, 0x00] = { rxbuf := [], messages := [], error := true } := by
    decide +kernel
  refine ⟨exec_raFeed s hlen hfeed, ?_⟩
  rw [exec_raFeed { s with ownAddr := 0x02, rxbuf := [] } (by decide) hexample, feedResponse_no_messages]
  rfl

/-- A message record by its bytes (R76). -/
theorem messageRecord_eq :
    messageRecord = fun m : Message =>
      [m.destination, m.length, m.source, m.header, if m.checksumType = .additive then 0x00 else 0x01] ++ m.data := by
  funext m
  rw [messageRecord, ChecksumType.code_eq]

/-- Settles O36: the next state is `exec_raFeed`'s; 13107 copies of a 5-byte frame are 65535 bytes. -/
theorem raFeedReportsMessagesAndError : Obligations.RaFeedReportsMessagesAndError := by
  refine ⟨fun chunk s h => ⟨?_, fun hpart => ?_, ?_⟩, fun own => ?_⟩
  · rw [← messageRecord_eq]
    exact exec_raFeed s h rfl
  · have hfeed : raFeed s.ownAddr s.rxbuf [] = { rxbuf := s.rxbuf, messages := [], error := false } := by
      rw [raFeed_of_partial (by rwa [List.append_nil]), List.append_nil]
    rw [exec_raFeed s (by decide) hfeed, feedResponse_no_messages]
    rfl
  · have hexample : raFeed 0x02 [] [0x02, 0x02, 0x01, 0xFE, 0x10, 0x20, 0xCD] =
        { rxbuf := [], messages := [⟨0x02, 0x02, 0x01, 0xFE, [0x10, 0x20], .additive⟩], error := false } := by
      decide +kernel
    rw [exec_raFeed { s with ownAddr := 0x02, rxbuf := [] } (by decide) hexample, feedResponse_one_message]
    rfl
  · have hframe := additiveFramesRoundTrip own 0x00 0x00 [] [] (by decide)
    rw [List.append_nil] at hframe
    refine ⟨(List.replicate 13107 (encodeAdd own 0x00 0x00 [])).flatten, ?_, ?_⟩
    · rw [List.length_flatten, List.map_replicate, List.sum_replicate, encodeAdd_length]
      rfl
    · rw [raFeed_messages_replicate hframe rfl, List.length_replicate]

/-- Settles O37: `exec_raSetaddr`, and the command after it runs on the state it leaves. -/
theorem raSetaddrWritesOwnAddr : Obligations.RaSetaddrWritesOwnAddr := fun a s =>
  ⟨exec_raSetaddr a s, exec_raSetaddr 0x01 s, fun chunk _ => by
    rw [execAll_cons_of_next _ (exec_raSetaddr a s), execAll_singleton]⟩

/-- Settles O38: `exec_raGetaddr`, also in the state after a reset. -/
theorem raGetaddrReturnsOwnAddr : Obligations.RaGetaddrReturnsOwnAddr := fun s =>
  ⟨exec_raGetaddr s, exec_raGetaddr s.afterReset⟩

/-- Settles O39: without a whole frame the level is at most 259, so its 16 bits are the buffer's length. -/
theorem raLevelReturnsTheBufferLength : Obligations.RaLevelReturnsTheBufferLength := by
  refine fun s => ⟨exec_raLevel s rfl, fun h => ?_, ?_⟩
  · have hle := length_le_of_holdsNoWholeFrame h
    exact ⟨by rw [State.level, BitVec.toNat_ofNat]; omega, hle⟩
  · have hfeed : raFeed s.ownAddr [] [0x02, 0x02, 0x01] =
        { rxbuf := [0x02, 0x02, 0x01], messages := [], error := false } := raFeed_of_partial (.inr (by decide))
    rw [execAll_cons_of_next _ (exec_raFeed { s with rxbuf := [] } (by decide) hfeed), execAll_singleton,
      exec_raLevel (k := 3) _ rfl, feedResponse_no_messages, List.append_assoc]
    rfl

/-- Settles O40: `exec_raFlush`, also for the two buffers that the rule names. -/
theorem raFlushDiscardsTheBuffer : Obligations.RaFlushDiscardsTheBuffer := fun s =>
  ⟨exec_raFlush s rfl, exec_raFlush (k := 0) { s with rxbuf := [] } rfl,
    exec_raFlush (k := 1) { s with rxbuf := [0x02] } rfl⟩

/-- Settles O41: the first FEED keeps the partial frame and answers no message, and the second one reads the address
that RA.SETADDR wrote between them. -/
theorem filterUsesTheAddressOfTheCompletingFeed : Obligations.FilterUsesTheAddressOfTheCompletingFeed := by
  intro first second a m s hfirst hsecond hpart hok
  rw [execAll_cons_of_next _ (exec_raFeed s hfirst (raFeed_of_partial hpart)),
    execAll_cons_of_next _ (exec_raSetaddr a _), execAll_singleton, exec_raFeed _ hsecond (raFeed_one_frame hok),
    feedResponse_no_messages, List.append_assoc, List.append_assoc]
  by_cases hdest : m.destination = a
  · rw [accept_of_destination hdest, feedResponse_one_message, if_pos hdest]
    rfl
  · rw [accept, if_neg hdest, feedResponse_no_messages, if_neg hdest]
    rfl

end Sys2Proof.Machine
end

section
/-! PROOFS. The reset family (spec 70): what a reset sets, and when it is taken. -/

namespace Sys2Proof.Machine

/-- Settles O45: a reset behind an incomplete command is `step_of_reset`, and a whole command before it is
`step_of_command` with the reset left on the port behind the command's rest. -/
theorem resetSetsTheSpecifiedState : Obligations.ResetSetsTheSpecifiedState := by
  refine ⟨fun s later hd hp => step_of_reset hd hp, fun s i rest later hd hp => ?_, rfl, rfl, rfl, rfl, rfl⟩
  rw [← hp]
  exact step_of_command hd

end Sys2Proof.Machine
end
